-- ==== Sys2Proof/Word.lean ====
section
/-! DEFINITION. The two value types of the engine (spec 00_scope.md R7): no value has a signed interpretation. -/

namespace Sys2Proof

/-- A word: 32 bits, unsigned, bit 0 the least significant (00_scope.md R5, R7). -/
abbrev Word := BitVec 32

/-- A byte: 8 bits, unsigned (00_scope.md R7). -/
abbrev Byte := BitVec 8

end Sys2Proof
end

