-- ==== Sys2Proof/Syntax.lean ====
section
/-! DEFINITION. The instructions: one constructor for each row of spec/opcode_table.json (30_encoding.md R80 to R90). -/

namespace Sys2Proof

/-- The operations of the engine. The six commands and the two rows of reserved codes are of format CMD (R80, R86), the
four step operations of format STEP (R81, R87), the four round functions of format FSEL (R82). Commands and round
functions have no operand field (R84); a reserved row keeps its OP field; a step operation keeps its J field. -/
inductive Instr where
  /-- R192: no effect; BUSY pulses. -/
  | nop
  /-- R193: load IV into A to D, BLKIDX <- 0. -/
  | init
  /-- R194: pad and pack MSG[0..LEN-1] into WMEM. -/
  | pack
  /-- R195: compress block BLKIDX into A to D. -/
  | compress
  /-- R196: fold A to D into HEX. -/
  | fold
  /-- R197: INIT, PACK, compress every block, FOLD. -/
  | digest
  /-- R198: reserved codes 0x6 and 0x7; `op` is the whole OP field. -/
  | reserved67 (op : BitVec 4)
  /-- R198: reserved codes 0x8 to 0xF; `op` is the whole OP field. -/
  | reserved8F (op : BitVec 4)
  /-- R141: step j of round 1, step index i = j. -/
  | ff (j : BitVec 4)
  /-- R142: step j of round 2, step index i = 16 + j. -/
  | gg (j : BitVec 4)
  /-- R143: step j of round 3, step index i = 32 + j. -/
  | hh (j : BitVec 4)
  /-- R144: step j of round 4, step index i = 48 + j. -/
  | ii (j : BitVec 4)
  /-- R131: the round function of FSEL = 0b00. -/
  | f
  /-- R132: the round function of FSEL = 0b01. -/
  | g
  /-- R133: the round function of FSEL = 0b10. -/
  | h
  /-- R134: the round function of FSEL = 0b11. -/
  | i
deriving DecidableEq, Repr

end Sys2Proof
end

