-- ==== Sys2Proof/WellFormed.lean ====
section
/-! DEFINITION. Well-formed instructions: the operand fields are those the row of spec/opcode_table.json admits. -/

namespace Sys2Proof

/-- An instruction is well formed when some word of its row carries it. Only the reserved rows have a field that could
be another row's: their OP field is 6 or 7, or 8 to 15 (30_encoding.md R86, R88). A J field takes all its 16 values
(30_encoding.md R89). -/
def Instr.wf : Instr → Bool
  | .nop => true
  | .init => true
  | .pack => true
  | .compress => true
  | .fold => true
  | .digest => true
  | .reserved67 op => op == 6#4 || op == 7#4
  | .reserved8F op => (8#4).ule op
  | .ff _ => true
  | .gg _ => true
  | .hh _ => true
  | .ii _ => true
  | .f => true
  | .g => true
  | .h => true
  | .i => true

end Sys2Proof
end

