-- ==== Sys2Proof/Decode.lean ====
section
/-! DEFINITION. Decoding and encoding (30_encoding.md R80 to R90). The three formats are three separate decoders of the
engine: CMD words come from the host, STEP words from the step counter, FSEL words from a step's RSEL field. Their words
overlap, so bytes are decoded together with the format of the place they stand in. -/

namespace Sys2Proof

/-- The three formats of 30_encoding.md R80 to R82. -/
inductive Format where
  /-- One 32-bit word, the data of a write to CMD (R80). -/
  | cmd
  /-- The 6-bit step index (R81). -/
  | step
  /-- The 2-bit round-function select (R82). -/
  | fsel
deriving DecidableEq, Repr

/-- Why bytes are not an instruction of a format. -/
inductive Reject where
  /-- Not the number of bytes the format has: four for CMD, one for STEP and FSEL (assumption log 18). -/
  | wrongLength
  /-- A byte for a STEP word that is over 63. -/
  | overSixBits
  /-- A byte for an FSEL word that is over 3. -/
  | overTwoBits
deriving DecidableEq, Repr

/-- The opcode map of the OP field (30_encoding.md R86). -/
def decodeOp (op : BitVec 4) : Instr :=
  if op = 0x0#4 then .nop
  else if op = 0x1#4 then .init
  else if op = 0x2#4 then .pack
  else if op = 0x3#4 then .compress
  else if op = 0x4#4 then .fold
  else if op = 0x5#4 then .digest
  else if op = 0x6#4 ∨ op = 0x7#4 then .reserved67 op
  else .reserved8F op

/-- Format CMD: OP is bits [3:0], bits [31:4] have no meaning (30_encoding.md R80, R88). -/
def decodeCmd (v : Word) : Instr := decodeOp (v.extractLsb' 0 4)

/-- Format STEP: RSEL is bits [5:4], J is bits [3:0] (30_encoding.md R81, R87). Every word is defined (R89). -/
def decodeStep (i : BitVec 6) : Instr :=
  let rsel := i.extractLsb' 4 2
  let j := i.extractLsb' 0 4
  if rsel = 0b00#2 then .ff j
  else if rsel = 0b01#2 then .gg j
  else if rsel = 0b10#2 then .hh j
  else .ii j

/-- Format FSEL (30_encoding.md R82). Every word is defined (R89). -/
def decodeFsel (sel : BitVec 2) : Instr :=
  if sel = 0b00#2 then .f
  else if sel = 0b01#2 then .g
  else if sel = 0b10#2 then .h
  else .i

/-- Four bytes, the one at the lowest offset least significant, as a word (20_memory.md R53, R54). -/
def wordOfBytes (b0 b1 b2 b3 : Byte) : Word := b3 ++ b2 ++ b1 ++ b0

/-- Byte k of a word, byte 0 the least significant (20_memory.md R53, R54). -/
def byteOfWord (w : Word) (k : Nat) : Byte := w.extractLsb' (8 * k) 8

/-- Decoding, total on any bytes: a CMD word as its four bytes on the bus (20_memory.md R54); a STEP or FSEL word as one
byte whose unused high bits are 0. DESIGN CHOICE (assumption log 18, safe): the spec gives these two no byte form. -/
def decode : Format → List Byte → Except Reject Instr
  | .cmd, [b0, b1, b2, b3] => .ok (decodeCmd (wordOfBytes b0 b1 b2 b3))
  | .cmd, _ => .error .wrongLength
  | .step, [b] => if b.toNat < 64 then .ok (decodeStep (b.extractLsb' 0 6)) else .error .overSixBits
  | .step, _ => .error .wrongLength
  | .fsel, [b] => if b.toNat < 4 then .ok (decodeFsel (b.extractLsb' 0 2)) else .error .overTwoBits
  | .fsel, _ => .error .wrongLength

/-- The format of an instruction's row. -/
def Instr.format : Instr → Format
  | .nop => .cmd
  | .init => .cmd
  | .pack => .cmd
  | .compress => .cmd
  | .fold => .cmd
  | .digest => .cmd
  | .reserved67 _ => .cmd
  | .reserved8F _ => .cmd
  | .ff _ => .step
  | .gg _ => .step
  | .hh _ => .step
  | .ii _ => .step
  | .f => .fsel
  | .g => .fsel
  | .h => .fsel
  | .i => .fsel

/-- The four bytes of a CMD word with the given OP field and the ignored bits 0. -/
def cmdBytes (op : BitVec 4) : List Byte :=
  let w : Word := 0#28 ++ op
  [byteOfWord w 0, byteOfWord w 1, byteOfWord w 2, byteOfWord w 3]

/-- The byte of a STEP word: RSEL and J. -/
def stepBytes (rsel : BitVec 2) (j : BitVec 4) : List Byte := [0#2 ++ rsel ++ j]

/-- The byte of an FSEL word. -/
def fselBytes (sel : BitVec 2) : List Byte := [0#6 ++ sel]

/-- Encoding: the bytes of an instruction in its format, the bits CMD ignores being 0 (30_encoding.md R80, R86, R87). -/
def encode : Instr → List Byte
  | .nop => cmdBytes 0x0#4
  | .init => cmdBytes 0x1#4
  | .pack => cmdBytes 0x2#4
  | .compress => cmdBytes 0x3#4
  | .fold => cmdBytes 0x4#4
  | .digest => cmdBytes 0x5#4
  | .reserved67 op => cmdBytes op
  | .reserved8F op => cmdBytes op
  | .ff j => stepBytes 0b00#2 j
  | .gg j => stepBytes 0b01#2 j
  | .hh j => stepBytes 0b10#2 j
  | .ii j => stepBytes 0b11#2 j
  | .f => fselBytes 0b00#2
  | .g => fselBytes 0b01#2
  | .h => fselBytes 0b10#2
  | .i => fselBytes 0b11#2

/-- The format in which a bare number of the opcode table is read. The table's rows carry no format in their bits, and a
number of one byte may be a word of all three: 2 bits are an FSEL word, 6 bits a STEP word; one byte is a STEP word when
RSEL is not 0 and bits 7:6 are 0, else a CMD word; more is a CMD word. DESIGN CHOICE (assumption log 17): only the
host's table probe uses it, never the machine. -/
def tableFormat (nbits w : Nat) : Format :=
  if nbits ≤ 2 then .fsel
  else if nbits ≤ 6 then .step
  else if nbits ≤ 8 ∧ 0x10 ≤ w ∧ w < 0x40 then .step
  else .cmd

/-- A table number laid out as the bytes of its format. -/
def tableBytes : Format → Nat → List Byte
  | .cmd, w =>
    let v := BitVec.ofNat 32 w
    [byteOfWord v 0, byteOfWord v 1, byteOfWord v 2, byteOfWord v 3]
  | .step, w => [BitVec.ofNat 8 w]
  | .fsel, w => [BitVec.ofNat 8 w]

/-- What the decoder reads from a word of spec/opcode_table.json, the bits above `nbits` being 0. -/
def decodeTableWord (nbits w : Nat) : Option Instr :=
  match decode (tableFormat nbits w) (tableBytes (tableFormat nbits w) w) with
  | .ok instr => some instr
  | .error _ => none

end Sys2Proof
end

