-- ==== Sys2Proof/Config.lean ====
section
/-! DEFINITION. The parameters of one engine (00_scope.md R6) and the values the spec leaves free (93 U1, U2).
The parameters are plain data and stand in State, so that a claim about every state is a claim about every legal
value of them; the free values are opaque, so that no proof can know them. -/

namespace Sys2Proof

/-- The parameters of 00_scope.md R6 that are numbers. `LATENCY` is no number of the model: it is the place of the
engine's turn in the schedule (assumption log 5). `MSG_INIT` and `WMEM_INIT` are `Config.memInit`. -/
structure Params where
  /-- `ENGINE_BASE`: the host address of offset 0 (92 D3); platform-chosen. -/
  engineBase : Word
  /-- `MSG_BYTES`: size of MSG in bytes, 1 to 65536 (92 D6). -/
  msgBytes   : Nat
  /-- `WMEM_BLOCKS`: size of WMEM in 16-word blocks, 1 to 256 (92 D7). -/
  wmemBlocks : Nat
deriving DecidableEq, Repr

/-- The legal ranges of 00_scope.md R6. -/
abbrev Params.Legal (p : Params) : Prop :=
  1 ≤ p.msgBytes ∧ p.msgBytes ≤ 65536 ∧ 1 ≤ p.wmemBlocks ∧ p.wmemBlocks ≤ 256

/-- The defaults of 00_scope.md R6. DESIGN CHOICE (assumption log 1, unsafe): `ENGINE_BASE`, which the spec leaves to
the platform, is 0 in the reset state; every claim is over all of its values. -/
def Params.default : Params := { engineBase := 0, msgBytes := 4096, wmemBlocks := 65 }

/-- `MSG_INIT` and `WMEM_INIT` (00_scope.md R6, 93 U2): the byte at a bus offset after the given number of resets. A
free value, with no body: nothing can be proved of it but that it is one fixed array for each reset (assumption log 3). -/
opaque Config.memInit : Nat → Nat → Byte

/-- `ANY32` (20_memory.md R62, 93 U1): the value of the n-th read of engine-written state while BUSY = 1. A free value,
with no body, drawn afresh for each such read (assumption log 4). -/
opaque Config.any32 : Nat → Word

end Sys2Proof
end

