-- ==== Sys2Proof/Machine/State.lean ====
section
/-! DEFINITION. The machine's state as plain data (10_state.md), the reasons a step can stop, and the state after reset. -/

namespace Sys2Proof.Machine

/-- A name of one of four like registers: A to D, or a to d. -/
inductive Reg where
  | a | b | c | d
deriving DecidableEq, Repr

/-- Four like registers: the chaining registers A to D (10_state.md R21) or the working registers a to d (R22). -/
structure Regs where
  a : Word
  b : Word
  c : Word
  d : Word
deriving DecidableEq, Repr

/-- The six commands (30_encoding.md R86), as the phase EXEC(op) holds them (10_state.md R25). -/
inductive Command where
  | nop | init | pack | compress | fold | digest
deriving DecidableEq, Repr

/-- The phase (10_state.md R25). STATUS.BUSY is 1 exactly when it is EXEC (assumption log 13). -/
inductive Phase where
  | idle
  | exec (op : Command)
deriving DecidableEq, Repr

/-- The error codes that STATUS.ECODE can show (60_exceptions.md R222). Codes 7 to 15 are never produced, so they are no
value of this type (assumption log 14). -/
inductive ErrCode where
  | none | illegalCmd | lenRange | capacity | noBlock | busyWrite | busAccess
deriving DecidableEq, Repr

/-- What reaches the engine in one atomic step (10_state.md R20, 20_memory.md R65). -/
inductive Event where
  /-- A host read of n bytes at a host address (20_memory.md R62). -/
  | read (addr : Word) (n : Nat)
  /-- A host write of n bytes at a host address (20_memory.md R63); n = 1 carries its data in v[7:0]. -/
  | write (addr : Word) (n : Nat) (v : Word)
  /-- The engine's turn: its completion step, where one is enabled (45_commands.md R191). -/
  | engine
  /-- The platform resets the engine (70_reset_and_hazards.md R250). -/
  | reset
  /-- A STEP word at the step dispatch, outside a block compression. DESIGN CHOICE (assumption log 9): the engine itself
  never does this; it is how one step operation is run alone. -/
  | stepWord (i : BitVec 6)
  /-- An FSEL word at the round-function select, outside a step. DESIGN CHOICE (assumption log 9). -/
  | fselWord (sel : BitVec 2)
deriving DecidableEq, Repr

/-- The byte store behind WMEM and MSG, keyed by bus offset (20_memory.md R52; assumption log 7): one cell for each byte
written since reset, addresses strictly rising. An unlisted address holds no value of the list's: it reads as the free
reset contents (assumption log 3). -/
abbrev Memory := List Host.Cell

/-- Why the machine could stop with a fault. There is no reason: every error of this hardware is recorded in STATUS and
the machine goes on (60_exceptions.md R221, R230), so the type is empty and no step answers a fault. -/
inductive Fault where
deriving DecidableEq, Repr

/-- Why an instruction could have no meaning in the model. -/
inductive Refusal where
  /-- Raised by an arm of exec whose instruction has no meaning yet; no arm does. Safe: the machine stops. -/
  | notModelled (mnemonic : String)
deriving DecidableEq, Repr

/-- The state: the spec's (10_state.md section 8), the parameters, and five fields of the model's own (`epoch`, `draws`,
`readLog`, `fval`, `sched`; INVENTORY.md). -/
structure State where
  /-- The parameters (00_scope.md R6); no step changes them. -/
  params  : Params
  /-- Phase (R25); STATUS.BUSY is computed from it. -/
  phase   : Phase
  /-- Step counter (R24). -/
  step    : BitVec 6
  /-- STATUS.DONE (R37). -/
  done    : Bool
  /-- STATUS.ERR (R39). -/
  err     : Bool
  /-- STATUS.ECODE (R39). -/
  ecode   : ErrCode
  /-- BLKIDX, bits [15:0] (R31). -/
  blkidx  : BitVec 16
  /-- NBLK, bits [15:0] (R30). -/
  nblk    : BitVec 16
  /-- LEN (R29). -/
  len     : Word
  /-- Model's own: what reaches the engine next, oldest first (assumption log 5). -/
  sched   : List Event
  /-- Model's own: what host reads returned, newest first (assumption log 6). -/
  readLog : List Word
  /-- Model's own: ANY32 values drawn so far (assumption log 4). -/
  draws   : Nat
  /-- Model's own: resets so far; selects the free reset contents (assumption log 3). -/
  epoch   : Nat
  /-- Model's own: the round-function unit's result port (assumption log 10). -/
  fval    : Word
  /-- Chaining registers A to D (R21). -/
  chain   : Regs
  /-- Working registers a to d (R22). -/
  work    : Regs
  /-- Block buffer X[0..15] (R23). -/
  X       : Vector Word 16
  /-- The digest character buffer HEX[0..31] (R33). -/
  hex     : Vector Byte 32
  /-- WMEM and MSG (R35, R36). -/
  mem     : Memory
deriving DecidableEq, Repr

/-- The state right after reset (70_reset_and_hazards.md R250). A to D hold IV (42_round_pipeline.md R137).
DESIGN CHOICE (assumption log 12, unsafe): a to d, X and the model's own fields, for which the spec gives no value, are
zero or empty. DESIGN CHOICE (assumption log 1): ENGINE_BASE is 0. -/
def State.reset : State where
  params  := Params.default
  phase   := .idle
  step    := 0
  done    := false
  err     := false
  ecode   := .none
  blkidx  := 0
  nblk    := 0
  len     := 0
  sched   := []
  readLog := []
  draws   := 0
  epoch   := 0
  fval    := 0
  chain   := { a := 0x67452301, b := 0xEFCDAB89, c := 0x98BADCFE, d := 0x10325476 }
  work    := { a := 0, b := 0, c := 0, d := 0 }
  X       := Vector.replicate 16 0
  hex     := Vector.replicate 32 0x00
  mem     := []

end Sys2Proof.Machine
end

