-- ==== Sys2Proof/Machine/Operands.lean ====
section
/-! DEFINITION. Arithmetic and operand assembly: ADD32 and ROTL32 (43_arith_primitives.md), the round functions and the
schedule of a step (42_round_pipeline.md R131 to R139), hex digits (44_hex_encoder.md R181), the block count
(41_padding_packing.md R111) and the register selectors. -/

namespace Sys2Proof.Machine

/-! ### Arithmetic primitives -/

/-- ADD32 (43_arith_primitives.md R170): the sum modulo 2^32; the carry out of bit 31 is dropped. -/
def add32 (x y : Word) : Word := x + y

/-- ROTL32 (43_arith_primitives.md R172): rotate left by s mod 32, rotation by 0 being the identity (92 D34). -/
def rotl32 (v : Word) (s : Nat) : Word := (v <<< (s % 32)) ||| (v >>> (32 - s % 32))

/-! ### Round functions -/

/-- F (42_round_pipeline.md R131): bit by bit, if x then y else z. -/
def fnF (x y z : Word) : Word := (x &&& y) ||| (~~~x &&& z)

/-- G (42_round_pipeline.md R132): bit by bit, if z then x else y. -/
def fnG (x y z : Word) : Word := (x &&& z) ||| (y &&& ~~~z)

/-- H (42_round_pipeline.md R133). -/
def fnH (x y z : Word) : Word := x ^^^ y ^^^ z

/-- I (42_round_pipeline.md R134). -/
def fnI (x y z : Word) : Word := y ^^^ (x ||| ~~~z)

/-- The round function that FSEL selects (30_encoding.md R82). -/
def roundFn (sel : BitVec 2) : Word → Word → Word → Word :=
  if sel = 0b00#2 then fnF
  else if sel = 0b01#2 then fnG
  else if sel = 0b10#2 then fnH
  else fnI

/-! ### Step index fields and schedule -/

/-- RSEL, bits [5:4] of the step index (30_encoding.md R81). -/
def rselOf (i : BitVec 6) : BitVec 2 := i.extractLsb' 4 2

/-- J, bits [3:0] of the step index (30_encoding.md R81). -/
def jOf (i : BitVec 6) : BitVec 4 := i.extractLsb' 0 4

/-- TSEL, bits [1:0] of the step index (30_encoding.md R81). -/
def tselOf (i : BitVec 6) : BitVec 2 := i.extractLsb' 0 2

/-- Message word index k(i), 0 to 15 (42_round_pipeline.md R135). -/
def wordIndex (i : BitVec 6) : Nat :=
  let j := (jOf i).toNat
  if rselOf i = 0b00#2 then j
  else if rselOf i = 0b01#2 then (1 + 5 * j) % 16
  else if rselOf i = 0b10#2 then (5 + 3 * j) % 16
  else (7 * j) % 16

/-- The four shift amounts of a round, in the listed order (42_round_pipeline.md R136). -/
def shiftsOf (rsel : BitVec 2) : List Nat :=
  if rsel = 0b00#2 then [7, 12, 17, 22]
  else if rsel = 0b01#2 then [5, 9, 14, 20]
  else if rsel = 0b10#2 then [4, 11, 16, 23]
  else [6, 10, 15, 21]

/-- Shift amount s(i) = S[r][i mod 4] (42_round_pipeline.md R136). -/
def shiftAmount (i : BitVec 6) : Nat := (shiftsOf (rselOf i)).getD (tselOf i).toNat 0

/-- The additive constants of round 1 (42_round_pipeline.md R138). -/
def constants1 : List Word :=
  [0xD76AA478, 0xE8C7B756, 0x242070DB, 0xC1BDCEEE, 0xF57C0FAF, 0x4787C62A, 0xA8304613, 0xFD469501,
   0x698098D8, 0x8B44F7AF, 0xFFFF5BB1, 0x895CD7BE, 0x6B901122, 0xFD987193, 0xA679438E, 0x49B40821]

/-- The additive constants of round 2 (42_round_pipeline.md R138). -/
def constants2 : List Word :=
  [0xF61E2562, 0xC040B340, 0x265E5A51, 0xE9B6C7AA, 0xD62F105D, 0x02441453, 0xD8A1E681, 0xE7D3FBC8,
   0x21E1CDE6, 0xC33707D6, 0xF4D50D87, 0x455A14ED, 0xA9E3E905, 0xFCEFA3F8, 0x676F02D9, 0x8D2A4C8A]

/-- The additive constants of round 3 (42_round_pipeline.md R138). -/
def constants3 : List Word :=
  [0xFFFA3942, 0x8771F681, 0x6D9D6122, 0xFDE5380C, 0xA4BEEA44, 0x4BDECFA9, 0xF6BB4B60, 0xBEBFBC70,
   0x289B7EC6, 0xEAA127FA, 0xD4EF3085, 0x04881D05, 0xD9D4D039, 0xE6DB99E5, 0x1FA27CF8, 0xC4AC5665]

/-- The additive constants of round 4 (42_round_pipeline.md R138). -/
def constants4 : List Word :=
  [0xF4292244, 0x432AFF97, 0xAB9423A7, 0xFC93A039, 0x655B59C3, 0x8F0CCC92, 0xFFEFF47D, 0x85845DD1,
   0x6FA87E4F, 0xFE2CE6E0, 0xA3014314, 0x4E0811A1, 0xF7537E82, 0xBD3AF235, 0x2AD7D2BB, 0xEB86D391]

/-- The table T[0..63] (42_round_pipeline.md R138); the table, not the sine formula, is normative (91 N2). -/
def constants : List Word := constants1 ++ constants2 ++ constants3 ++ constants4

/-- Additive constant T[i] (42_round_pipeline.md R138). -/
def additive (i : BitVec 6) : Word := constants.getD i.toNat 0

/-- The register that a TSEL value targets: A, D, C, B cycling (42_round_pipeline.md R139). -/
def targetOf (tsel : BitVec 2) : Reg :=
  if tsel = 0b00#2 then .a
  else if tsel = 0b01#2 then .d
  else if tsel = 0b10#2 then .c
  else .b

/-- The register that follows in the cyclic order a, b, c, d (42_round_pipeline.md R139). -/
def Reg.succ : Reg → Reg
  | .a => .b
  | .b => .c
  | .c => .d
  | .d => .a

/-- Read one of four registers. -/
def Regs.get (r : Regs) : Reg → Word
  | .a => r.a
  | .b => r.b
  | .c => r.c
  | .d => r.d

/-- Write one of four registers. -/
def Regs.set (r : Regs) (n : Reg) (v : Word) : Regs :=
  match n with
  | .a => { r with a := v }
  | .b => { r with b := v }
  | .c => { r with c := v }
  | .d => { r with d := v }

/-- A function of the three registers that follow the target: its arguments (p, q, r) (42_round_pipeline.md R139). -/
def applyArgs (fn : Word → Word → Word → Word) (t : Reg) (r : Regs) : Word :=
  fn (r.get t.succ) (r.get t.succ.succ) (r.get t.succ.succ.succ)

/-- The block accumulation's four additions (42_round_pipeline.md R145). -/
def Regs.add (x y : Regs) : Regs :=
  { a := add32 x.a y.a, b := add32 x.b y.b, c := add32 x.c y.c, d := add32 x.d y.d }

/-- The initial values IV (42_round_pipeline.md R137). -/
def iv : Regs := { a := 0x67452301, b := 0xEFCDAB89, c := 0x98BADCFE, d := 0x10325476 }

/-! ### Hex fold -/

/-- The byte code of one lowercase hexadecimal digit (44_hex_encoder.md R181): 0x30 to 0x39, 0x61 to 0x66. -/
def hexdig (n : BitVec 4) : Byte :=
  if n.toNat < 10 then BitVec.ofNat 8 (0x30 + n.toNat) else BitVec.ofNat 8 (0x61 + (n.toNat - 10))

/-- The r-th of four registers, R[0] = A to R[3] = D (44_hex_encoder.md R180). -/
def Regs.nth (x : Regs) (r : Nat) : Word :=
  if r = 0 then x.a else if r = 1 then x.b else if r = 2 then x.c else x.d

/-- HEX[m] of the fold (44_hex_encoder.md R180): m = 8r + 2j or 8r + 2j + 1, byte j of register r, high nibble first.
DESIGN CHOICE (assumption log 22): R180's own Example disagrees with its pseudocode on B = 0x89ABCDEF ("89abcdef" for
"efcdab89"); the pseudocode is followed. -/
def hexChar (x : Regs) (m : Nat) : Byte :=
  let byte := byteOfWord (x.nth (m / 8)) (m % 8 / 2)
  if m % 2 = 0 then hexdig (byte.extractLsb' 4 4) else hexdig (byte.extractLsb' 0 4)

/-- `fold(A, B, C, D)` (44_hex_encoder.md R180): the 32 characters. -/
def foldHex (x : Regs) : Vector Byte 32 := Vector.ofFn fun m => hexChar x m.val

/-! ### Lengths -/

/-- Block count nb(L) = floor((L + 8) / 64) + 1, on mathematical integers (41_padding_packing.md R111). -/
def blockCount (len : Nat) : Nat := (len + 8) / 64 + 1

/-! ### Commands -/

/-- The command an instruction is; the reserved rows, the step operations and the round functions are none (R86, R88). -/
def commandOf : Instr → Option Command
  | .nop => some .nop
  | .init => some .init
  | .pack => some .pack
  | .compress => some .compress
  | .fold => some .fold
  | .digest => some .digest
  | .reserved67 _ => none
  | .reserved8F _ => none
  | .ff _ => none
  | .gg _ => none
  | .hh _ => none
  | .ii _ => none
  | .f => none
  | .g => none
  | .h => none
  | .i => none

/-- The instruction that EXEC(op) runs (10_state.md R25, 30_encoding.md R86). -/
def instrOf : Command → Instr
  | .nop => .nop
  | .init => .init
  | .pack => .pack
  | .compress => .compress
  | .fold => .fold
  | .digest => .digest

end Sys2Proof.Machine
end

