-- ==== Sys2Proof/Machine/Flags.lean ====
section
/-! DEFINITION. The status register (10_state.md R28, R37 to R39): its fields as the bus shows them. -/

namespace Sys2Proof.Machine

/-- STATUS.BUSY (10_state.md R25, R38): 1 exactly when the phase is EXEC. -/
def State.busy (s : State) : Bool :=
  match s.phase with
  | .idle => false
  | .exec _ => true

/-- The 4-bit code of an error (60_exceptions.md R222). -/
def ErrCode.code : ErrCode → BitVec 4
  | .none => 0
  | .illegalCmd => 1
  | .lenRange => 2
  | .capacity => 3
  | .noBlock => 4
  | .busyWrite => 5
  | .busAccess => 6

/-- STATUS as a word (10_state.md R28): BUSY bit 0, DONE bit 1, ERR bit 2, ECODE bits 11:8, the rest 0. -/
def State.status (s : State) : Word :=
  0#20 ++ s.ecode.code ++ 0#5 ++ BitVec.ofBool s.err ++ BitVec.ofBool s.done ++ BitVec.ofBool s.busy

/-- DONE after a command is accepted (45_commands.md R190): NOP keeps it, every other command clears it. -/
def doneAfterAccept (c : Command) (done : Bool) : Bool :=
  match c with
  | .nop => done
  | .init => false
  | .pack => false
  | .compress => false
  | .fold => false
  | .digest => false

/-- The WARL rule of NBLK and BLKIDX (10_state.md R30, R31): min(v[15:0], WMEM_BLOCKS). -/
def warlIndex (p : Params) (v : Word) : BitVec 16 :=
  BitVec.ofNat 16 (min (v.extractLsb' 0 16).toNat p.wmemBlocks)

end Sys2Proof.Machine
end

