-- ==== Sys2Proof/Machine/Ops.lean ====
section
/-! DEFINITION. The shared operations: the byte store (20_memory.md R50 to R54), the error primitive
(60_exceptions.md R221) and its clearing (R231), the acceptance and completion of a command (45_commands.md R190, R191),
the value a host read returns, and reset (70_reset_and_hazards.md R250). -/

namespace Sys2Proof.Machine

/-! ### The byte store -/

/-- The canonical form: addresses strictly rising. An unlisted address holds no value of the list's, so no entry can
equal it. -/
abbrev Memory.wf (m : Memory) : Prop := m.Pairwise (fun p q => p.1 < q.1)

/-- The byte written at an address since reset, if any. -/
def Memory.read? : Memory → Nat → Option Byte
  | [], _ => none
  | (k, v) :: rest, a => if k = a then some v else Memory.read? rest a

/-- Write one byte, keeping the addresses rising. -/
def Memory.write : Memory → Nat → Byte → Memory
  | [], a, v => [(a, v)]
  | (k, w) :: rest, a, v =>
    if k < a then (k, w) :: Memory.write rest a v
    else if k = a then (a, v) :: rest
    else (a, v) :: (k, w) :: rest

/-- What a bus offset reads as: the byte written last, else the free reset contents of this epoch (10_state.md R35, R36;
assumption log 3). -/
def Memory.byte (epoch : Nat) (m : Memory) (a : Nat) : Byte := (m.read? a).getD (Config.memInit epoch a)

/-- Four consecutive bytes as a little-endian word (20_memory.md R53, R54). -/
def Memory.word (epoch : Nat) (m : Memory) (a : Nat) : Word :=
  wordOfBytes (m.byte epoch a) (m.byte epoch (a + 1)) (m.byte epoch (a + 2)) (m.byte epoch (a + 3))

/-- Write the low n bytes of a value, least significant at the lowest offset (20_memory.md R54, R63). -/
def Memory.store (m : Memory) (a : Nat) : Nat → Word → Memory
  | 0, _ => m
  | n + 1, v => (Memory.store m a n v).write (a + n) (byteOfWord v n)

/-- The bus offset of word W[n] (20_memory.md R52). -/
def wmemOff (n : Nat) : Nat := 0x04000 + 4 * n

/-- The bus offset of byte MSG[j] (20_memory.md R52). -/
def msgOff (j : Nat) : Nat := 0x10000 + j

/-- W[n] <- v, one word of WMEM. -/
def Memory.setW (m : Memory) (n : Nat) (v : Word) : Memory := m.store (wmemOff n) 4 v

/-- The byte the engine or the host finds at a bus offset of WMEM or MSG. -/
def State.byteAt (s : State) (a : Nat) : Byte := Memory.byte s.epoch s.mem a

/-- The word the engine or the host finds at a bus offset of WMEM or MSG. -/
def State.wordAt (s : State) (a : Nat) : Word := Memory.word s.epoch s.mem a

/-- W[n] (10_state.md R35). -/
def State.W (s : State) (n : Nat) : Word := s.wordAt (wmemOff n)

/-- MSG[j] (10_state.md R36). -/
def State.MSG (s : State) (j : Nat) : Byte := s.byteAt (msgOff j)

/-- The offsets that WMEM and MSG populate (20_memory.md R51). -/
abbrev populated (p : Params) (a : Nat) : Prop :=
  (0x04000 ≤ a ∧ a < 0x04000 + 64 * p.wmemBlocks) ∨ (0x10000 ≤ a ∧ a < 0x10000 + p.msgBytes)

/-! ### Errors: the one exception mechanism -/

/-- `raise EngineError(code)` (60_exceptions.md R221): the first error since ERR was clear sets ERR and ECODE; with ERR
already 1 nothing is recorded. Nothing is saved and control goes nowhere (R230); that the current operation ends is the
caller's doing, which goes on with the state this answers. -/
def raiseError (code : ErrCode) (s : State) : State :=
  if s.err then s else { s with err := true, ecode := code }

/-- The end of an error (60_exceptions.md R231): a STATUS write with bit 2 = 1 clears ERR and ECODE. There is no other
return from an error (R230). -/
def clearError (s : State) : State := { s with err := false, ecode := .none }

/-! ### Commands: acceptance and completion -/

/-- A command is accepted (45_commands.md R190): BUSY <- 1 and phase <- EXEC(op), which is one field here; DONE <- 0 but
for NOP. -/
def accept (c : Command) (s : State) : State :=
  { s with done := doneAfterAccept c s.done, phase := .exec c }

/-- A command's body has run: BUSY <- 0, phase <- IDLE (45_commands.md R191). -/
def complete (s : State) : State := { s with phase := .idle }

/-! ### Host reads -/

/-- A host read returns a value (20_memory.md R62). -/
def respond (v : Word) (s : State) : State := { s with readLog := v :: s.readLog }

/-- A host read returns ANY32, a fresh arbitrary value (20_memory.md R62; assumption log 4). -/
def respondAny (s : State) : State :=
  { s with readLog := Config.any32 s.draws :: s.readLog, draws := s.draws + 1 }

/-! ### Reset -/

/-- Reset as an event (70_reset_and_hazards.md R250, R251): every engine field takes its reset value, at any phase, and
the memories a fresh arbitrary content. The parameters, and what belongs to the host and the schedule, are no state of
the engine and stay (assumption log 19). -/
def resetEngine (s : State) : State :=
  { State.reset with
    params := s.params, epoch := s.epoch + 1, draws := s.draws, readLog := s.readLog, sched := s.sched }

end Sys2Proof.Machine
end

