-- ==== Sys2Proof/Machine/Packing.lean ====
section
/-! DEFINITION. `pack`: message padding and word packing (41_padding_packing.md R110 to R119). -/

namespace Sys2Proof.Machine

/-- `for n = 0 to count - 1`, in increasing order (00_scope.md R9). -/
def countUp {α : Type} (body : Nat → α → α) : Nat → α → α
  | 0, x => x
  | n + 1, x => body n (countUp body n x)

/-- W[n] <- W[n] | v, the OR-combined store of 41_padding_packing.md R113 and R114. -/
def Memory.orW (epoch : Nat) (m : Memory) (n : Nat) (v : Word) : Memory :=
  m.setW n (Memory.word epoch m (wmemOff n) ||| v)

/-- Zero fill (R112): W[n] <- 0 for the first `words` words. -/
def zeroFill (words : Nat) (m : Memory) : Memory := countUp (fun n m => m.setW n 0) words m

/-- Byte packing (R113): byte j of the message goes into word j >> 2, shifted by 8 * (j mod 4). -/
def packByte (epoch : Nat) (j : Nat) (m : Memory) : Memory :=
  m.orW epoch (j / 4) ((Memory.byte epoch m (msgOff j)).setWidth 32 <<< (8 * (j % 4)))

/-- Byte packing of the whole message (R113). -/
def packBytes (epoch : Nat) (len : Nat) (m : Memory) : Memory := countUp (packByte epoch) len m

/-- The padding byte 0x80 in the next byte slot (R114). -/
def packPadding (epoch : Nat) (len : Nat) (m : Memory) : Memory :=
  m.orW epoch (len / 4) ((0x80 : Word) <<< (8 * (len % 4)))

/-- The two length words (R115): (L << 3) mod 2^32 and L >> 29, L being the 32-bit LEN value. -/
def packLength (nb : Nat) (len : Word) (m : Memory) : Memory :=
  (m.setW (16 * nb - 2) (len <<< 3)).setW (16 * nb - 1) (len >>> 29)

/-- The word array of the padded message in WMEM (R112 to R115). -/
def packMemory (epoch : Nat) (len : Word) (m : Memory) : Memory :=
  let nb := blockCount len.toNat
  packLength nb len (packPadding epoch len.toNat (packBytes epoch len.toNat (zeroFill (16 * nb) m)))

/-- `pack()` (R118): the word array, then NBLK <- nb and BLKIDX <- 0 (R117). Callers have checked the limits. -/
def packMessage (s : State) : State :=
  { s with
    mem := packMemory s.epoch s.len s.mem
    nblk := BitVec.ofNat 16 (blockCount s.len.toNat)
    blkidx := 0 }

end Sys2Proof.Machine
end

