-- ==== Sys2Proof/Machine/Pipeline.lean ====
section
/-! DEFINITION. The generic step and block compression (42_round_pipeline.md R140, R145, R146). -/

namespace Sys2Proof.Machine

/-- The new value of the step's target (42_round_pipeline.md R140): ADD32 of the old target, f(p, q, r), X[k] and T[i],
rotated left by s, then ADD32 of p. -/
def stepValue (fn : Word → Word → Word → Word) (X : Vector Word 16) (i : BitVec 6) (r : Regs) : Word :=
  let t := targetOf (tselOf i)
  let v := add32 (r.get t) (applyArgs fn t r)
  let v := add32 v (X.toList.getD (wordIndex i) 0)
  let v := add32 v (additive i)
  add32 (rotl32 v (shiftAmount i)) (r.get t.succ)

/-- The working registers after STEP(i) with a given round function (42_round_pipeline.md R140): only the target
changes. -/
def stepRegs (fn : Word → Word → Word → Word) (X : Vector Word 16) (i : BitVec 6) (r : Regs) : Regs :=
  r.set (targetOf (tselOf i)) (stepValue fn X i r)

/-- STEP(i) on the state (42_round_pipeline.md R140): the target, and step <- i + 1. DEDUCED (assumption log 11, safe):
the counter has 6 bits, so after step 63 it holds 0. -/
def stepOp (fn : Word → Word → Word → Word) (i : BitVec 6) (s : State) : State :=
  { s with work := stepRegs fn s.X i s.work, step := i + 1 }

/-- The working registers after the steps 0 to n - 1 on a block, in order, each once, RSEL selecting the function of each
(30_encoding.md R82, R87, 42_round_pipeline.md R146). -/
def stepsOn (X : Vector Word 16) (n : Nat) (r : Regs) : Regs :=
  countUp (fun i => stepRegs (roundFn (rselOf (BitVec.ofNat 6 i))) X (BitVec.ofNat 6 i)) n r

/-- The 16 words of block b: X[k] = W[16*b + k] (10_state.md R23). -/
def blockAt (b : Nat) (s : State) : Vector Word 16 := Vector.ofFn fun k => s.W (16 * b + k.val)

/-- The working registers after the 64 steps of block b, which they start as A to D (42_round_pipeline.md R145). -/
def blockRegs (b : Nat) (s : State) : Regs := stepsOn (blockAt b s) 64 s.chain

/-- `compress_block(b)` (42_round_pipeline.md R145): the block is loaded, the 64 steps run on the working registers, and A
to D accumulate them. The step counter, 6 bits wide, ends at 0 (assumption log 11). -/
def compressBlock (b : Nat) (s : State) : State :=
  { s with X := blockAt b s, work := blockRegs b s, step := 0, chain := s.chain.add (blockRegs b s) }

/-- Compress block BLKIDX, then BLKIDX <- BLKIDX + 1 (45_commands.md R195, R197). -/
def compressNext (s : State) : State :=
  { compressBlock s.blkidx.toNat s with blkidx := s.blkidx + 1 }

end Sys2Proof.Machine
end

