-- ==== Sys2Proof/Machine/Commands.lean ====
section
/-! DEFINITION. The commands and the reserved codes (45_commands.md R192 to R198), one meaning each. The meaning of a
command is its completion step (R191): the body, then BUSY <- 0 and phase <- IDLE. A raise in the body records the error
and skips the rest of the body. The meaning of a reserved code is what its CMD write does (R198). -/

namespace Sys2Proof.Machine

/-- The error a PACK or DIGEST finds before it changes anything (45_commands.md R194, R197): LEN_RANGE before CAPACITY
(60_exceptions.md R229). -/
def lengthError (s : State) : Option ErrCode :=
  if s.len.toNat > s.params.msgBytes then some .lenRange
  else if blockCount s.len.toNat > s.params.wmemBlocks then some .capacity
  else none

/-- A..D <- IV; BLKIDX <- 0 (45_commands.md R193). -/
def loadIv (s : State) : State := { s with chain := iv, blkidx := 0 }

/-- `fold()`, then DONE <- 1 (45_commands.md R196, 44_hex_encoder.md R180). -/
def foldDigest (s : State) : State := { s with hex := foldHex s.chain, done := true }

/-- `while BLKIDX < NBLK: compress the next block` (45_commands.md R197), at most `fuel` times. -/
def compressAll : Nat → State → State
  | 0, s => s
  | fuel + 1, s => if s.blkidx < s.nblk then compressAll fuel (compressNext s) else s

/-- The body of DIGEST once the limits are checked (45_commands.md R197). NBLK blocks are all the loop can run, as pack
has set BLKIDX to 0. -/
def digestMessage (s : State) : State :=
  let s := packMessage (loadIv s)
  foldDigest (compressAll s.nblk.toNat s)

/-- NOP (45_commands.md R192): the body is empty. -/
def execNop (s : State) : Host.Outcome State Fault Refusal := .next (complete s)

/-- INIT (45_commands.md R193). -/
def execInit (s : State) : Host.Outcome State Fault Refusal := .next (complete (loadIv s))

/-- PACK (45_commands.md R194). -/
def execPack (s : State) : Host.Outcome State Fault Refusal :=
  match lengthError s with
  | some code => .next (complete (raiseError code s))
  | none => .next (complete (packMessage s))

/-- COMPRESS (45_commands.md R195). -/
def execCompress (s : State) : Host.Outcome State Fault Refusal :=
  if s.blkidx < s.nblk then .next (complete (compressNext s))
  else .next (complete (raiseError .noBlock s))

/-- FOLD (45_commands.md R196). -/
def execFold (s : State) : Host.Outcome State Fault Refusal := .next (complete (foldDigest s))

/-- DIGEST (45_commands.md R197). -/
def execDigest (s : State) : Host.Outcome State Fault Refusal :=
  match lengthError s with
  | some code => .next (complete (raiseError code s))
  | none => .next (complete (digestMessage s))

/-- Reserved codes 0x6 and 0x7 (45_commands.md R198, 60_exceptions.md R223): ILLEGAL_CMD, not accepted, nothing else
changes, whichever of the codes it is. -/
def execReserved67 (_op : BitVec 4) (s : State) : Host.Outcome State Fault Refusal := .next (raiseError .illegalCmd s)

/-- Reserved codes 0x8 to 0xF (45_commands.md R198, 60_exceptions.md R223): ILLEGAL_CMD, not accepted, nothing else
changes, whichever of the codes it is. -/
def execReserved8F (_op : BitVec 4) (s : State) : Host.Outcome State Fault Refusal := .next (raiseError .illegalCmd s)

end Sys2Proof.Machine
end

