-- ==== Sys2Proof/Machine/Bus.lean ====
section
/-! DEFINITION. The host bus: legality, MemRead, MemWrite and IssueCommand (20_memory.md R50 to R67, 45_commands.md R190). -/

namespace Sys2Proof.Machine

/-- `legal(off, n)` (20_memory.md R55), on mathematical integers. -/
abbrev legal (p : Params) (off n : Nat) : Prop :=
  (off ≤ 0x0FC ∧ n = 4 ∧ off % 4 = 0)
  ∨ (0x04000 ≤ off ∧ off + n ≤ 0x04000 + 64 * p.wmemBlocks ∧ n = 4 ∧ off % 4 = 0)
  ∨ (0x10000 ≤ off ∧ off + n ≤ 0x10000 + p.msgBytes ∧ (n = 1 ∨ (n = 4 ∧ off % 4 = 0)))

/-- The registers whose reads are ANY32 while BUSY: NBLK, BLKIDX, A to D, HEX0 to HEX7 (20_memory.md R61, R62). -/
abbrev engineWrittenReg (off : Nat) : Prop :=
  off = 0x00C ∨ off = 0x010 ∨ (0x020 ≤ off ∧ off ≤ 0x02C) ∨ (0x040 ≤ off ∧ off ≤ 0x05C)

/-- HEXk (10_state.md R33): the four characters HEX[4k] to HEX[4k + 3], the first least significant. -/
def State.hexWord (s : State) (k : Nat) : Word :=
  wordOfBytes (s.hex.toList.getD (4 * k) 0) (s.hex.toList.getD (4 * k + 1) 0)
    (s.hex.toList.getD (4 * k + 2) 0) (s.hex.toList.getD (4 * k + 3) 0)

/-- The exact value of an engine-written register at its offset (20_memory.md R62, 10_state.md R30 to R33). -/
def regView (off : Nat) (s : State) : Word :=
  if off = 0x00C then s.nblk.setWidth 32
  else if off = 0x010 then s.blkidx.setWidth 32
  else if off ≤ 0x02C then s.chain.nth ((off - 0x020) / 4)
  else s.hexWord ((off - 0x040) / 4)

/-- A read of a register slot (20_memory.md R62; the accesses are aligned). -/
def readReg (off : Nat) (s : State) : State :=
  if off = 0x004 then respond s.status s
  else if off = 0x008 then respond s.len s
  else if engineWrittenReg off then
    if s.busy then respondAny s else respond (regView off s) s
  else respond 0 s

/-- `MemRead(off, n)` (20_memory.md R62). -/
def memRead (off n : Nat) (s : State) : State :=
  if legal s.params off n then
    if off ≤ 0x0FC then readReg off s
    else if off < 0x10000 then
      if s.busy then respondAny s else respond (s.wordAt off) s
    else if n = 1 then respond ((s.byteAt off).setWidth 32) s
    else respond (s.wordAt off) s
  else respond 0 (raiseError .busAccess s)

/-- `IssueCommand(op)` (45_commands.md R190), op being v[3:0] of the CMD write: a command is accepted, a reserved code
raises ILLEGAL_CMD and is not. -/
def issueCommand (v : Word) (s : State) : State :=
  match commandOf (decodeCmd v) with
  | some c => accept c s
  | none => raiseError .illegalCmd s

/-- A write that is performed while idle: CMD, LEN, NBLK, BLKIDX, a word of WMEM, one or four bytes of MSG
(20_memory.md R63). -/
def writeIdle (off n : Nat) (v : Word) (s : State) : State :=
  if off = 0x000 then issueCommand v s
  else if off = 0x008 then { s with len := v }
  else if off = 0x00C then { s with nblk := warlIndex s.params v }
  else if off = 0x010 then { s with blkidx := warlIndex s.params v }
  else { s with mem := Memory.store s.mem off n v }

/-- `MemWrite(off, n, v)` (20_memory.md R63): STATUS at any phase, read-only and reserved registers ignored at any phase,
the rest dropped with BUSY_WRITE while BUSY. -/
def memWrite (off n : Nat) (v : Word) (s : State) : State :=
  if legal s.params off n then
    if off = 0x004 then
      if v.getLsbD 2 then clearError s else s
    else if off ≤ 0x0FC ∧ off ≠ 0x000 ∧ off ≠ 0x008 ∧ off ≠ 0x00C ∧ off ≠ 0x010 then s
    else if s.busy then raiseError .busyWrite s
    else writeIdle off n v s
  else raiseError .busAccess s

/-- The offset of a host address from ENGINE_BASE (20_memory.md R50, R59). DEDUCED (assumption log 1): host addresses
are 32 bits wide, so the difference is taken modulo 2^32. -/
def busOffset (p : Params) (addr : Word) : Nat := (addr - p.engineBase).toNat

/-- The host address of an offset. -/
def busAddr (p : Params) (off : Nat) : Word := p.engineBase + BitVec.ofNat 32 off

end Sys2Proof.Machine
end

