-- ==== Sys2Proof/Machine/RoundFunctions.lean ====
section
/-! DEFINITION. The round functions F, G, H, I as operations of their own (42_round_pipeline.md R131 to R134), one meaning
each. -/

namespace Sys2Proof.Machine

/-- A round function run alone: its operands are the arguments (p, q, r) that the step counter's TSEL selects from the
working registers (30_encoding.md R85, 42_round_pipeline.md R139), its one word goes to the unit's result port.
DESIGN CHOICE (assumption log 10): the spec gives the function and its operands in a step; it names no register for the
result, which in a step is added on at once. -/
def roundOp (fn : Word → Word → Word → Word) (s : State) : State :=
  { s with fval := applyArgs fn (targetOf (tselOf s.step)) s.work }

/-- F (42_round_pipeline.md R131). -/
def execF (s : State) : Host.Outcome State Fault Refusal := .next (roundOp fnF s)

/-- G (42_round_pipeline.md R132). -/
def execG (s : State) : Host.Outcome State Fault Refusal := .next (roundOp fnG s)

/-- H (42_round_pipeline.md R133). -/
def execH (s : State) : Host.Outcome State Fault Refusal := .next (roundOp fnH s)

/-- I (42_round_pipeline.md R134). -/
def execI (s : State) : Host.Outcome State Fault Refusal := .next (roundOp fnI s)

end Sys2Proof.Machine
end

