-- ==== Sys2Proof/Machine/Steps.lean ====
section
/-! DEFINITION. The step operations FF, GG, HH, II (42_round_pipeline.md R141 to R144), one meaning each. -/

namespace Sys2Proof.Machine

/-- FF(i), i = j (42_round_pipeline.md R141): STEP(i) with F. -/
def execFf (j : BitVec 4) (s : State) : Host.Outcome State Fault Refusal :=
  .next (stepOp fnF (0b00#2 ++ j) s)

/-- GG(i), i = 16 + j (42_round_pipeline.md R142): STEP(i) with G. -/
def execGg (j : BitVec 4) (s : State) : Host.Outcome State Fault Refusal :=
  .next (stepOp fnG (0b01#2 ++ j) s)

/-- HH(i), i = 32 + j (42_round_pipeline.md R143): STEP(i) with H. -/
def execHh (j : BitVec 4) (s : State) : Host.Outcome State Fault Refusal :=
  .next (stepOp fnH (0b10#2 ++ j) s)

/-- II(i), i = 48 + j (42_round_pipeline.md R144): STEP(i) with I. -/
def execIi (j : BitVec 4) (s : State) : Host.Outcome State Fault Refusal :=
  .next (stepOp fnI (0b11#2 ++ j) s)

end Sys2Proof.Machine
end

