-- ==== Sys2Proof/Machine/Dispatch.lean ====
section
/-! DEFINITION. The dispatch: one arm for each constructor of Instr, each a direct call of its meaning. -/

namespace Sys2Proof.Machine

/-- The meaning of an instruction. -/
def exec (instr : Instr) (s : State) : Host.Outcome State Fault Refusal :=
  match instr with
  | .nop => Sys2Proof.Machine.execNop s
  | .init => Sys2Proof.Machine.execInit s
  | .pack => Sys2Proof.Machine.execPack s
  | .compress => Sys2Proof.Machine.execCompress s
  | .fold => Sys2Proof.Machine.execFold s
  | .digest => Sys2Proof.Machine.execDigest s
  | .reserved67 op => Sys2Proof.Machine.execReserved67 op s
  | .reserved8F op => Sys2Proof.Machine.execReserved8F op s
  | .ff j => Sys2Proof.Machine.execFf j s
  | .gg j => Sys2Proof.Machine.execGg j s
  | .hh j => Sys2Proof.Machine.execHh j s
  | .ii j => Sys2Proof.Machine.execIi j s
  | .f => Sys2Proof.Machine.execF s
  | .g => Sys2Proof.Machine.execG s
  | .h => Sys2Proof.Machine.execH s
  | .i => Sys2Proof.Machine.execI s

end Sys2Proof.Machine
end

