-- ==== Sys2Proof/Machine/Step.lean ====
section
/-! DEFINITION. One step: the next event of the schedule, or the engine's turn where none is left. -/

namespace Sys2Proof.Machine

/-- The engine's turn (45_commands.md R191): in phase EXEC(op), the one atomic completion step of the command; in phase
IDLE nothing is enabled and nothing changes (60_exceptions.md R237). -/
def engineTurn (s : State) : Host.Outcome State Fault Refusal :=
  match s.phase with
  | .idle => .next s
  | .exec c => exec (instrOf c) s

/-- One event, on the state that no longer holds it (20_memory.md R65). -/
def perform (e : Event) (s : State) : Host.Outcome State Fault Refusal :=
  match e with
  | .read addr n => .next (memRead (busOffset s.params addr) n s)
  | .write addr n v => .next (memWrite (busOffset s.params addr) n v s)
  | .engine => engineTurn s
  | .reset => .next (resetEngine s)
  | .stepWord i => exec (decodeStep i) s
  | .fselWord sel => exec (decodeFsel sel) s

/-- One step of the machine. With nothing scheduled the engine has the turn, which is the weak fairness of
45_commands.md R191 (assumption log 5). -/
def step (s : State) : Host.Outcome State Fault Refusal :=
  match s.sched with
  | [] => engineTurn s
  | e :: rest => perform e { s with sched := rest }

/-- The state in which the very next step runs the instruction of a table word (assumption log 8). A command stands where
the engine takes it from: it has been accepted and the engine's turn is next. A reserved code is never accepted, so its
CMD write is next, in phase IDLE. A STEP or FSEL word is next at its dispatch. -/
def State.withFetchWord (s : State) (nbits w : Nat) : State :=
  match decodeTableWord nbits w with
  | none => s
  | some instr =>
    match commandOf instr with
    | some c => { accept c s with sched := .engine :: s.sched }
    | none =>
      match instr.format with
      | .cmd =>
        { s with phase := .idle, sched := .write (busAddr s.params 0x000) 4 (BitVec.ofNat 32 w) :: s.sched }
      | .step => { s with sched := .stepWord (BitVec.ofNat 6 w) :: s.sched }
      | .fsel => { s with sched := .fselWord (BitVec.ofNat 2 w) :: s.sched }

end Sys2Proof.Machine
end

