-- ==== Sys2Proof/Machine/HostPrep.lean ====
section
/-! DEFINITION. The host's side, which is no part of the engine: byte preparation (40_host_byte_prep.md R100 to R103) and
the accesses that the lines of a host program are (30_encoding.md R91, R92). Nothing the engine does uses this file
(assumption log 16); Machine/HostProgram.lean runs these accesses and reads their results. -/

namespace Sys2Proof.Machine

/-! ### Text to bytes -/

/-- Line-end normalisation (40_host_byte_prep.md R101): each adjacent pair CR LF becomes LF, scanning left to right. -/
def normaliseLines : List (BitVec 16) → List (BitVec 16)
  | [] => []
  | [u] => [u]
  | u :: v :: rest =>
    if u = 0x000D#16 ∧ v = 0x000A#16 then 0x000A#16 :: normaliseLines rest
    else u :: normaliseLines (v :: rest)

/-- Byte stuffing of one code unit (40_host_byte_prep.md R102). A surrogate half is a unit like any other and gives three
bytes (R103). -/
def stuffUnit (c : BitVec 16) : List Byte :=
  if c.toNat < 128 then [c.setWidth 8]
  else if c.toNat < 2048 then [((c >>> 6) ||| 192#16).setWidth 8, ((c &&& 63#16) ||| 128#16).setWidth 8]
  else [((c >>> 12) ||| 224#16).setWidth 8, (((c >>> 6) &&& 63#16) ||| 128#16).setWidth 8,
        ((c &&& 63#16) ||| 128#16).setWidth 8]

/-- The bytes a host prepares from a text (40_host_byte_prep.md R101 to R103). -/
def hostBytes (text : List (BitVec 16)) : List Byte := (normaliseLines text).flatMap stuffUnit

/-! ### The accesses of host programs -/

/-- `WR32 off, v` (30_encoding.md R91). -/
def wr32 (p : Params) (off : Nat) (v : Word) : Event := .write (busAddr p off) 4 v

/-- `WR8 off, v` (30_encoding.md R91). -/
def wr8 (p : Params) (off : Nat) (v : Byte) : Event := .write (busAddr p off) 1 (v.setWidth 32)

/-- `RD32 off` (30_encoding.md R91); the value read is the newest entry of `readLog`. -/
def rd32 (p : Params) (off : Nat) : Event := .read (busAddr p off) 4

/-- `RD8 off` (30_encoding.md R91). -/
def rd8 (p : Params) (off : Nat) : Event := .read (busAddr p off) 1

/-- The OP code of a command (30_encoding.md R86). -/
def opCode : Command → Word
  | .nop => 0
  | .init => 1
  | .pack => 2
  | .compress => 3
  | .fold => 4
  | .digest => 5

/-- `NOP`, `INIT`, `PACK`, `COMPRESS`, `FOLD`, `DIGEST` as pseudo-instructions (30_encoding.md R92). -/
def issue (p : Params) (c : Command) : List Event := [wr32 p 0x000 (opCode c)]

/-- `CLRERR` (30_encoding.md R92). -/
def clrErr (p : Params) : List Event := [wr32 p 0x004 0x4]

/-- `WR8 MSG + j, b` for each byte, j counting up from a start (30_encoding.md R92). -/
def msgWrites (p : Params) : Nat → List Byte → List Event
  | _, [] => []
  | j, b :: bytes => wr8 p (0x10000 + j) b :: msgWrites p (j + 1) bytes

/-- `WR32 LEN, L` for a length that LEN holds; a length of 2^32 or more cannot be written and is refused
(93_implementation_defined.md U12). -/
def lenWrite (p : Params) (len : Nat) : Option Event :=
  if len < 2 ^ 32 then some (wr32 p 0x008 (BitVec.ofNat 32 len)) else none

/-- `LOADMSG b0, b1, …` (30_encoding.md R92), refused for a length that LEN cannot hold. -/
def loadMsg (p : Params) (bytes : List Byte) : Option (List Event) :=
  (lenWrite p bytes.length).map fun e => msgWrites p 0 bytes ++ [e]

/-- The reads of `READHEX` (30_encoding.md R92). -/
def readHex (p : Params) : List Event := (List.range 8).map fun k => rd32 p (0x040 + 4 * k)

end Sys2Proof.Machine
end

