-- ==== Sys2Proof/Safety.lean ====
section
/-! DEFINITION. What claims are stated in: the invariant of the machine, the parts of a state that a host can see, and the
reference form of the digest, written from the rules in a form of its own (a byte list, and the rotating registers of
42_round_pipeline.md R148) so that a claim can compare the engine with it. No definition of the machine uses this file. -/

namespace Sys2Proof.Safety

open Sys2Proof.Machine

/-! ### The invariant -/

/-- What holds in every state the machine can reach: the parameters are legal (00_scope.md R6); memory is canonical and
lists populated offsets only (20_memory.md R51); NBLK and BLKIDX are at most WMEM_BLOCKS (10_state.md R30, R31); ERR is 0
exactly when ECODE is 0 (R39); while DONE = 1, HEX is the fold of A to D (R37); a command other than NOP runs with
DONE = 0 (45_commands.md R190). -/
structure Inv (s : State) : Prop where
  params : s.params.Legal
  memory : Memory.wf s.mem
  cells  : ∀ c ∈ s.mem, populated s.params c.1
  nblk   : s.nblk.toNat ≤ s.params.wmemBlocks
  blkidx : s.blkidx.toNat ≤ s.params.wmemBlocks
  ecode  : s.err = false ↔ s.ecode = .none
  digest : s.done = true → s.hex = foldHex s.chain
  busy   : ∀ c, s.phase = .exec c → c ≠ .nop → s.done = false

/-- A step, or an instruction, goes on: it neither faults nor is refused. -/
def goesOn (o : Host.Outcome State Fault Refusal) : Prop := ∃ t, o = .next t

/-- A run is safe when it goes on for ever and records no error (60_exceptions.md R221). -/
def SafeRun (s : State) : Prop :=
  ∀ k, ∃ t, Host.Core.run Sys2Proof.core k s = .next t ∧ t.err = false

/-- A message that PACK and DIGEST accept (45_commands.md R194, R197). -/
abbrev Fits (s : State) : Prop :=
  s.len.toNat ≤ s.params.msgBytes ∧ blockCount s.len.toNat ≤ s.params.wmemBlocks

/-! ### What a host can see -/

/-- A state with the internals that no host access reads (10_state.md R22 to R24, R40), and the model's own result port,
replaced by those of another. -/
def withInternalsOf (s t : State) : State :=
  { s with work := t.work, X := t.X, step := t.step, fval := t.fval }

/-- Two states that differ at most in those internals. -/
def SameOutside (s t : State) : Prop := withInternalsOf s t = t

/-- The offsets of WMEM's window (20_memory.md R51). -/
abbrev inWmem (a : Nat) : Prop := 0x04000 ≤ a ∧ a < 0x08000

/-- Two states that differ at most in the state the engine writes (20_memory.md R61) and in the internals: A to D, HEX,
NBLK, BLKIDX and the bytes of WMEM. -/
structure SameButEngineState (s t : State) : Prop where
  params  : s.params = t.params
  phase   : s.phase = t.phase
  done    : s.done = t.done
  err     : s.err = t.err
  ecode   : s.ecode = t.ecode
  len     : s.len = t.len
  msg     : ∀ a, ¬ inWmem a → s.byteAt a = t.byteAt a
  draws   : s.draws = t.draws
  readLog : s.readLog = t.readLog
  sched   : s.sched = t.sched

/-! ### The reference digest -/

/-- The eight bytes of the 64-bit length field, least significant first (41_padding_packing.md R115): 8 * L. -/
def lengthField (len : Nat) : List Byte := (List.range 8).map fun k => BitVec.ofNat 8 (8 * len / 256 ^ k)

/-- The padded message as bytes: the message, 0x80, zeros, and the length field, up to a whole number of blocks. -/
def paddedBytes (msg : List Byte) : List Byte :=
  msg ++ [0x80] ++ List.replicate (64 * blockCount msg.length - msg.length - 9) 0 ++ lengthField msg.length

/-- Word n of a byte list, little-endian (20_memory.md R53). -/
def listWord (bytes : List Byte) (n : Nat) : Word :=
  wordOfBytes (bytes.getD (4 * n) 0) (bytes.getD (4 * n + 1) 0) (bytes.getD (4 * n + 2) 0) (bytes.getD (4 * n + 3) 0)

/-- One iteration of the rotating form (42_round_pipeline.md R148). -/
def rotatingStep (X : Nat → Word) (i : Nat) (r : Regs) : Regs :=
  let n := BitVec.ofNat 6 i
  { a := r.d
    b := add32 r.b (rotl32 (add32 (add32 (add32 r.a (roundFn (rselOf n) r.b r.c r.d)) (X (wordIndex n))) (additive n))
      (shiftAmount n))
    c := r.b
    d := r.c }

/-- The compression of one block in the rotating form: 64 iterations, then the accumulation (R145, R148). -/
def rotatingBlock (X : Nat → Word) (r : Regs) : Regs :=
  r.add ((List.range 64).foldl (fun q i => rotatingStep X i q) r)

/-- The chaining registers after the blocks 0 to nb - 1 of a word array, from IV. -/
def md5Chain (words : Nat → Word) (nb : Nat) : Regs :=
  (List.range nb).foldl (fun r b => rotatingBlock (fun k => words (16 * b + k)) r) iv

/-- The digest's registers of a message of bytes. -/
def md5Regs (msg : List Byte) : Regs := md5Chain (listWord (paddedBytes msg)) (blockCount msg.length)

/-- The message an engine holds: MSG[0..LEN-1] (10_state.md R36). -/
def messageOf (s : State) : List Byte := (List.range s.len.toNat).map s.MSG

/-- Run instructions one after another, stopping at the first that does not go on. -/
def execAll : List Instr → State → Host.Outcome State Fault Refusal
  | [], s => .next s
  | instr :: rest, s =>
    match exec instr s with
    | .next t => execAll rest t
    | .fault r => .fault r
    | .refused r => .refused r

end Sys2Proof.Safety
end

