-- ==== Sys2Proof/Certificates/Slice0/Obligations.lean ====
section
/-! DEFINITION. The statements, one def Obligations.<Name> : Prop each, from the numbered rules of spec/. -/

open Sys2Proof Sys2Proof.Machine Sys2Proof.Safety

/-! ### Arithmetic, round functions, schedule -/

/-- ADD32 is the sum of the two unsigned numbers modulo 2^32 (R170). -/
def Obligations.Add32IsSumModulo : Prop :=
  ∀ x y : Word, (add32 x y).toNat = (x.toNat + y.toNat) % 2 ^ 32

/-- ROTL32: bit n of the result is bit (n - s) mod 32 of the operand, for every amount, rotation by 0 being the identity
(R172). -/
def Obligations.Rotl32MovesEveryBit : Prop :=
  ∀ (v : Word) (s n : Nat), n < 32 → (rotl32 v s).getLsbD n = v.getLsbD ((n + (32 - s % 32)) % 32)

/-- F, G, H, I bit by bit (R131 to R134), and the function each FSEL value selects (R82). -/
def Obligations.RoundFunctionsBitByBit : Prop :=
  ∀ (x y z : Word) (n : Nat), n < 32 →
    (roundFn 0b00 x y z).getLsbD n = (if x.getLsbD n then y.getLsbD n else z.getLsbD n)
    ∧ (roundFn 0b01 x y z).getLsbD n = (if z.getLsbD n then x.getLsbD n else y.getLsbD n)
    ∧ (roundFn 0b10 x y z).getLsbD n = ((x.getLsbD n ^^ y.getLsbD n) ^^ z.getLsbD n)
    ∧ (roundFn 0b11 x y z).getLsbD n = (y.getLsbD n ^^ (x.getLsbD n || !z.getLsbD n))

/-- The schedule (R135, R136, R139): word index and shift amount of step j of each round, each round using every word of
the block exactly once; targets cycling a, d, c, b. -/
def Obligations.ScheduleFollowsTheFormulas : Prop :=
  (∀ j : BitVec 4,
    wordIndex (0b00#2 ++ j) = j.toNat ∧ wordIndex (0b01#2 ++ j) = (1 + 5 * j.toNat) % 16
    ∧ wordIndex (0b10#2 ++ j) = (5 + 3 * j.toNat) % 16 ∧ wordIndex (0b11#2 ++ j) = (7 * j.toNat) % 16
    ∧ shiftAmount (0b00#2 ++ j) = [7, 12, 17, 22].getD (j.toNat % 4) 0
    ∧ shiftAmount (0b01#2 ++ j) = [5, 9, 14, 20].getD (j.toNat % 4) 0
    ∧ shiftAmount (0b10#2 ++ j) = [4, 11, 16, 23].getD (j.toNat % 4) 0
    ∧ shiftAmount (0b11#2 ++ j) = [6, 10, 15, 21].getD (j.toNat % 4) 0)
  ∧ (∀ i : BitVec 6, targetOf (tselOf i) = [Reg.a, Reg.d, Reg.c, Reg.b].getD (i.toNat % 4) Reg.a)
  ∧ (∀ (r : BitVec 2) (k : Fin 16), ∃ j : BitVec 4, wordIndex (r ++ j) = k.val
      ∧ ∀ j' : BitVec 4, wordIndex (r ++ j') = k.val → j' = j)

/-- All 64 additive constants, the words of the table of R138 written out in its order. -/
def Obligations.AdditiveConstantsAreTheTable : Prop :=
  let table : List Word :=
    ([0xD76AA478, 0xE8C7B756, 0x242070DB, 0xC1BDCEEE,
      0xF57C0FAF, 0x4787C62A, 0xA8304613, 0xFD469501,
      0x698098D8, 0x8B44F7AF, 0xFFFF5BB1, 0x895CD7BE,
      0x6B901122, 0xFD987193, 0xA679438E, 0x49B40821] : List Word) ++
    ([0xF61E2562, 0xC040B340, 0x265E5A51, 0xE9B6C7AA,
      0xD62F105D, 0x02441453, 0xD8A1E681, 0xE7D3FBC8,
      0x21E1CDE6, 0xC33707D6, 0xF4D50D87, 0x455A14ED,
      0xA9E3E905, 0xFCEFA3F8, 0x676F02D9, 0x8D2A4C8A] : List Word) ++
    ([0xFFFA3942, 0x8771F681, 0x6D9D6122, 0xFDE5380C,
      0xA4BEEA44, 0x4BDECFA9, 0xF6BB4B60, 0xBEBFBC70,
      0x289B7EC6, 0xEAA127FA, 0xD4EF3085, 0x04881D05,
      0xD9D4D039, 0xE6DB99E5, 0x1FA27CF8, 0xC4AC5665] : List Word) ++
    ([0xF4292244, 0x432AFF97, 0xAB9423A7, 0xFC93A039,
      0x655B59C3, 0x8F0CCC92, 0xFFEFF47D, 0x85845DD1,
      0x6FA87E4F, 0xFE2CE6E0, 0xA3014314, 0x4E0811A1,
      0xF7537E82, 0xBD3AF235, 0x2AD7D2BB, 0xEB86D391] : List Word)
  ∀ i : BitVec 6, additive i = table.getD i.toNat 0

/-! ### Step operations: result, frame and completion in one equation -/

/-- FF(i), i = j (R140, R141): only the target register changes, to ((t + F(p, q, r) + X[j] + T[i]) <<< s) + p, and the
step counter goes to i + 1. -/
def Obligations.FfUpdatesItsTarget : Prop :=
  ∀ (j : BitVec 4) (s : State),
    let i : BitVec 6 := 0b00#2 ++ j
    let new (old p q r : Word) : Word :=
      rotl32 (old + ((p &&& q) ||| (~~~p &&& r)) + s.X[j.toNat]! + additive i) ([7, 12, 17, 22].getD (j.toNat % 4) 0) + p
    let w := s.work
    exec (.ff j) s = .next { s with
      step := i + 1
      work :=
        if j.toNat % 4 = 0 then { w with a := new w.a w.b w.c w.d }
        else if j.toNat % 4 = 1 then { w with d := new w.d w.a w.b w.c }
        else if j.toNat % 4 = 2 then { w with c := new w.c w.d w.a w.b }
        else { w with b := new w.b w.c w.d w.a } }

/-- GG(i), i = 16 + j (R140, R142). -/
def Obligations.GgUpdatesItsTarget : Prop :=
  ∀ (j : BitVec 4) (s : State),
    let i : BitVec 6 := 0b01#2 ++ j
    let new (old p q r : Word) : Word :=
      rotl32 (old + ((p &&& r) ||| (q &&& ~~~r)) + s.X[(1 + 5 * j.toNat) % 16]! + additive i)
        ([5, 9, 14, 20].getD (j.toNat % 4) 0) + p
    let w := s.work
    exec (.gg j) s = .next { s with
      step := i + 1
      work :=
        if j.toNat % 4 = 0 then { w with a := new w.a w.b w.c w.d }
        else if j.toNat % 4 = 1 then { w with d := new w.d w.a w.b w.c }
        else if j.toNat % 4 = 2 then { w with c := new w.c w.d w.a w.b }
        else { w with b := new w.b w.c w.d w.a } }

/-- HH(i), i = 32 + j (R140, R143). -/
def Obligations.HhUpdatesItsTarget : Prop :=
  ∀ (j : BitVec 4) (s : State),
    let i : BitVec 6 := 0b10#2 ++ j
    let new (old p q r : Word) : Word :=
      rotl32 (old + (p ^^^ q ^^^ r) + s.X[(5 + 3 * j.toNat) % 16]! + additive i)
        ([4, 11, 16, 23].getD (j.toNat % 4) 0) + p
    let w := s.work
    exec (.hh j) s = .next { s with
      step := i + 1
      work :=
        if j.toNat % 4 = 0 then { w with a := new w.a w.b w.c w.d }
        else if j.toNat % 4 = 1 then { w with d := new w.d w.a w.b w.c }
        else if j.toNat % 4 = 2 then { w with c := new w.c w.d w.a w.b }
        else { w with b := new w.b w.c w.d w.a } }

/-- II(i), i = 48 + j (R140, R144). The step counter after step 63 (i + 1 in 6 bits) is the model's (log 11). -/
def Obligations.IiUpdatesItsTarget : Prop :=
  ∀ (j : BitVec 4) (s : State),
    let i : BitVec 6 := 0b11#2 ++ j
    let new (old p q r : Word) : Word :=
      rotl32 (old + (q ^^^ (p ||| ~~~r)) + s.X[(7 * j.toNat) % 16]! + additive i)
        ([6, 10, 15, 21].getD (j.toNat % 4) 0) + p
    let w := s.work
    exec (.ii j) s = .next { s with
      step := i + 1
      work :=
        if j.toNat % 4 = 0 then { w with a := new w.a w.b w.c w.d }
        else if j.toNat % 4 = 1 then { w with d := new w.d w.a w.b w.c }
        else if j.toNat % 4 = 2 then { w with c := new w.c w.d w.a w.b }
        else { w with b := new w.b w.c w.d w.a } }

/-- F, G, H, I run alone (R131 to R134; that the operands are the arguments at the step counter and the result goes to the
port `fval` is the model's choice, log 10): the port takes the function's value and nothing else changes. -/
def Obligations.RoundFunctionInstructionsComplete : Prop :=
  ∀ s : State,
    let w := s.work
    let at3 (fn : Word → Word → Word → Word) : Word :=
      if s.step.toNat % 4 = 0 then fn w.b w.c w.d
      else if s.step.toNat % 4 = 1 then fn w.a w.b w.c
      else if s.step.toNat % 4 = 2 then fn w.d w.a w.b
      else fn w.c w.d w.a
    exec .f s = .next { s with fval := at3 fun x y z => (x &&& y) ||| (~~~x &&& z) }
    ∧ exec .g s = .next { s with fval := at3 fun x y z => (x &&& z) ||| (y &&& ~~~z) }
    ∧ exec .h s = .next { s with fval := at3 fun x y z => x ^^^ y ^^^ z }
    ∧ exec .i s = .next { s with fval := at3 fun x y z => y ^^^ (x ||| ~~~z) }

/-! ### Block compression -/

/-- COMPRESS with a block left runs the instructions of the 64 STEP words, 0 to 63 in order, on the loaded block, and
then accumulates (R145, R146, R195). -/
def Obligations.CompressRunsTheSixtyFourSteps : Prop :=
  ∀ s : State, s.blkidx < s.nblk →
    ∃ u, execAll ((List.range 64).map fun i => decodeStep (BitVec.ofNat 6 i))
        { s with X := Vector.ofFn fun k => s.W (16 * s.blkidx.toNat + k.val), work := s.chain, step := 0 } = .next u
      ∧ exec .compress s = .next { u with
          chain := { a := s.chain.a + u.work.a, b := s.chain.b + u.work.b,
                     c := s.chain.c + u.work.c, d := s.chain.d + u.work.d }
          blkidx := s.blkidx + 1
          phase := .idle }

/-- COMPRESS with a block left completes, and its A to D are those of the rotating form of MD5's compression
(R145, R148, R195); nothing else changes but BLKIDX, the phase and the internals of the pipeline. -/
def Obligations.CompressIsTheRotatingForm : Prop :=
  ∀ s : State, s.blkidx < s.nblk →
    ∃ t, exec .compress s = .next t
      ∧ t.chain = rotatingBlock (fun k => s.W (16 * s.blkidx.toNat + k)) s.chain
      ∧ t = { s with chain := t.chain, work := t.work, X := t.X, step := t.step,
                     blkidx := s.blkidx + 1, phase := .idle }

/-- COMPRESS with no block left records NO_BLOCK, unless an error is recorded already, and changes nothing else but the
phase (R226, R195). -/
def Obligations.CompressWithoutBlockRaisesNoBlock : Prop :=
  ∀ s : State, s.nblk ≤ s.blkidx →
    exec .compress s = .next { s with
      phase := .idle, err := true, ecode := if s.err then s.ecode else .noBlock }

/-! ### Commands -/

/-- NOP: only the phase goes back to IDLE (R192). -/
def Obligations.NopChangesOnlyThePhase : Prop :=
  ∀ s : State, exec .nop s = .next { s with phase := .idle }

/-- INIT: A to D take the initial values, BLKIDX is 0, nothing else changes but the phase (R193, R137). -/
def Obligations.InitLoadsTheInitialValues : Prop :=
  ∀ s : State, exec .init s = .next { s with
    chain := { a := 0x67452301, b := 0xEFCDAB89, c := 0x98BADCFE, d := 0x10325476 }, blkidx := 0, phase := .idle }

/-- FOLD: character 8r + 2j of HEX is the digit of the high nibble of byte j of register r and character 8r + 2j + 1 that
of its low nibble, a digit being its lowercase ASCII code; DONE is 1; nothing else changes but the phase
(R180, R181, R182, R196). R180's Example disagrees with its pseudocode; the pseudocode is followed (log 22). -/
def Obligations.FoldRendersTheRegisters : Prop :=
  ∀ s : State, ∃ t, exec .fold s = .next t
    ∧ t = { s with hex := t.hex, done := true, phase := .idle }
    ∧ ∀ (r : Fin 4) (j : Fin 4),
        let reg : Word := [s.chain.a, s.chain.b, s.chain.c, s.chain.d].getD r.val 0
        let digit (n : Nat) : Byte := if n < 10 then BitVec.ofNat 8 (0x30 + n) else BitVec.ofNat 8 (0x57 + n)
        t.hex[8 * r.val + 2 * j.val]! = digit (reg.toNat / 2 ^ (8 * j.val + 4) % 16)
        ∧ t.hex[8 * r.val + 2 * j.val + 1]! = digit (reg.toNat / 2 ^ (8 * j.val) % 16)

/-- After FOLD, and after a DIGEST whose message fits, every byte of HEX is the code of a character in [0-9a-f] (R183). -/
def Obligations.HexIsLowercaseHexadecimal : Prop :=
  ∀ s t : State, (exec .fold s = .next t ∨ (exec .digest s = .next t ∧ Fits s)) →
    ∀ m : Fin 32, (0x30 ≤ t.hex[m.val].toNat ∧ t.hex[m.val].toNat ≤ 0x39)
      ∨ (0x61 ≤ t.hex[m.val].toNat ∧ t.hex[m.val].toNat ≤ 0x66)

/-- PACK of a message that fits: the word array is the padded message, byte by byte; NBLK is the block count, BLKIDX 0;
no other byte of memory and nothing else changes but the phase (R111 to R118, R194). -/
def Obligations.PackBuildsThePaddedMessage : Prop :=
  ∀ s : State, s.params.Legal → Fits s →
    ∃ t, exec .pack s = .next t
      ∧ t = { s with mem := t.mem, nblk := t.nblk, blkidx := 0, phase := .idle }
      ∧ t.nblk.toNat = (s.len.toNat + 8) / 64 + 1
      ∧ (∀ p, p < 64 * t.nblk.toNat → t.byteAt (0x04000 + p) = (paddedBytes (messageOf s)).getD p 0)
      ∧ ∀ a, ¬ (0x04000 ≤ a ∧ a < 0x04000 + 64 * t.nblk.toNat) → t.byteAt a = s.byteAt a

/-- The two length words that PACK stores are 8 * LEN as a 64-bit number (R115). -/
def Obligations.PackStoresTheBitLength : Prop :=
  ∀ s t : State, s.params.Legal → Fits s → exec .pack s = .next t →
    (t.W (16 * t.nblk.toNat - 1)).toNat * 2 ^ 32 + (t.W (16 * t.nblk.toNat - 2)).toNat = 8 * s.len.toNat

/-- PACK of the empty message completes with one block: the padding bit and zeros (R119). -/
def Obligations.PackOfEmptyMessage : Prop :=
  ∀ s : State, s.params.Legal → s.len = 0 →
    ∃ t, exec .pack s = .next t ∧ t.nblk = 1 ∧ t.W 0 = 0x00000080 ∧ ∀ n, 1 ≤ n → n < 16 → t.W n = 0

/-- PACK and DIGEST of a LEN over MSG_BYTES record LEN_RANGE and change nothing else but the phase (R224, R229). -/
def Obligations.LengthOverMemoryRaisesLenRange : Prop :=
  ∀ s : State, s.params.msgBytes < s.len.toNat →
    let t := { s with phase := .idle, err := true, ecode := if s.err then s.ecode else .lenRange }
    exec .pack s = .next t ∧ exec .digest s = .next t

/-- PACK and DIGEST of a LEN that MSG holds but whose padded message WMEM does not record CAPACITY and change nothing else
but the phase (R225, R229). -/
def Obligations.TooManyBlocksRaisesCapacity : Prop :=
  ∀ s : State, s.len.toNat ≤ s.params.msgBytes → s.params.wmemBlocks < (s.len.toNat + 8) / 64 + 1 →
    let t := { s with phase := .idle, err := true, ecode := if s.err then s.ecode else .capacity }
    exec .pack s = .next t ∧ exec .digest s = .next t

/-- DIGEST of a message that fits: A to D are the MD5 registers of the bytes MSG[0..LEN-1], in the reference form (padded
byte list, rotating registers), and HEX is their fold; DONE is 1, NBLK and BLKIDX are the block count; no byte outside the
word array and nothing else changes but the phase and the internals of the pipeline (R197, R199). -/
def Obligations.DigestComputesMd5 : Prop :=
  ∀ s : State, s.params.Legal → Fits s →
    ∃ t, exec .digest s = .next t
      ∧ t.chain = md5Regs (messageOf s)
      ∧ t.hex = foldHex (md5Regs (messageOf s))
      ∧ t = { s with chain := t.chain, hex := t.hex, mem := t.mem, nblk := t.nblk, blkidx := t.blkidx,
                     work := t.work, X := t.X, step := t.step, done := true, phase := .idle }
      ∧ t.nblk.toNat = (s.len.toNat + 8) / 64 + 1 ∧ t.blkidx = t.nblk
      ∧ ∀ a, ¬ (0x04000 ≤ a ∧ a < 0x04000 + 64 * t.nblk.toNat) → t.byteAt a = s.byteAt a

/-- A DIGEST that raises no error leaves exactly the state that INIT, PACK, COMPRESS for each block, and FOLD leave
(R199). -/
def Obligations.DigestEqualsTheStagedCommands : Prop :=
  ∀ s : State, s.params.Legal → Fits s →
    exec .digest s =
      execAll ([.init, .pack] ++ List.replicate ((s.len.toNat + 8) / 64 + 1) .compress ++ [.fold]) s

/-- The reserved codes 6 to 15 raise ILLEGAL_CMD: ERR and ECODE are the only change, and they change only when no error
is recorded (R198, R223). -/
def Obligations.ReservedCodesRaiseIllegalCmd : Prop :=
  ∀ (op : BitVec 4) (s : State),
    let t := { s with err := true, ecode := if s.err then s.ecode else .illegalCmd }
    ((op = 6 ∨ op = 7) → exec (.reserved67 op) s = .next t) ∧ (8 ≤ op → exec (.reserved8F op) s = .next t)

/-! ### The bus -/

/-- STATUS as the bus shows it (R28, R25, R222). -/
def Obligations.StatusWordFields : Prop :=
  ∀ s : State,
    s.status.getLsbD 0 = decide (s.phase ≠ .idle) ∧ s.status.getLsbD 1 = s.done ∧ s.status.getLsbD 2 = s.err
    ∧ s.status.toNat / 2 ^ 8 = (match s.ecode with
        | .none => 0 | .illegalCmd => 1 | .lenRange => 2 | .capacity => 3
        | .noBlock => 4 | .busyWrite => 5 | .busAccess => 6)
    ∧ s.status.toNat / 2 ^ 3 % 2 ^ 5 = 0

/-- A CMD write in phase IDLE, its bits [31:4] being whatever they are: a command's code in bits [3:0] is accepted, with
BUSY set and DONE cleared but for NOP; a code of 6 or more records ILLEGAL_CMD and is not accepted; nothing else changes
(R190, R198). -/
def Obligations.CmdWriteIssuesTheCommand : Prop :=
  ∀ (s : State) (v : Word) (rest : List Event),
    s.phase = .idle → s.sched = .write (busAddr s.params 0x000) 4 v :: rest →
    (∀ c : Command, v &&& 0xF = opCode c →
      step s = .next { s with sched := rest, phase := .exec c, done := if c = .nop then s.done else false })
    ∧ (6 ≤ (v &&& 0xF).toNat →
      step s = .next { s with sched := rest, err := true, ecode := if s.err then s.ecode else .illegalCmd })

/-- A legal write to CMD, LEN, NBLK, BLKIDX, WMEM or MSG while BUSY is dropped and records BUSY_WRITE (R227, R63). -/
def Obligations.BusyWritesAreDropped : Prop :=
  ∀ (s : State) (off n : Nat) (v : Word) (rest : List Event),
    s.phase ≠ .idle → off < 2 ^ 32 → s.sched = .write (busAddr s.params off) n v :: rest → legal s.params off n →
    (off = 0x000 ∨ off = 0x008 ∨ off = 0x00C ∨ off = 0x010 ∨ 0x04000 ≤ off) →
    step s = .next { s with sched := rest, err := true, ecode := if s.err then s.ecode else .busyWrite }

/-- An access that is not legal records BUS_ACCESS at any phase: a read returns 0, a write changes nothing else
(R56, R228). -/
def Obligations.IllegalAccessRaisesBusAccess : Prop :=
  ∀ (s : State) (off n : Nat) (v : Word) (rest : List Event), off < 2 ^ 32 → ¬ legal s.params off n →
    (s.sched = .read (busAddr s.params off) n :: rest →
      step s = .next { s with
        sched := rest, readLog := 0 :: s.readLog, err := true, ecode := if s.err then s.ecode else .busAccess })
    ∧ (s.sched = .write (busAddr s.params off) n v :: rest →
      step s = .next { s with sched := rest, err := true, ecode := if s.err then s.ecode else .busAccess })

/-- A 32-bit STATUS write clears ERR and ECODE when bit 2 is 1 and does nothing when it is 0, at any phase (R28, R231). -/
def Obligations.StatusWriteClearsTheError : Prop :=
  ∀ (s : State) (v : Word) (rest : List Event), s.sched = .write (busAddr s.params 0x004) 4 v :: rest →
    step s = .next (if v.getLsbD 2 then { s with sched := rest, err := false, ecode := .none }
                    else { s with sched := rest })

/-- Idle writes to LEN, NBLK, BLKIDX: LEN takes the value, the other two min(v[15:0], WMEM_BLOCKS); nothing else changes
(R29, R30, R31, R63). -/
def Obligations.IdleRegisterWrites : Prop :=
  ∀ (s : State) (v : Word) (rest : List Event), s.phase = .idle →
    (s.sched = .write (busAddr s.params 0x008) 4 v :: rest → step s = .next { s with sched := rest, len := v })
    ∧ (s.sched = .write (busAddr s.params 0x00C) 4 v :: rest →
        step s = .next { s with sched := rest, nblk := BitVec.ofNat 16 (min (v.toNat % 2 ^ 16) s.params.wmemBlocks) })
    ∧ (s.sched = .write (busAddr s.params 0x010) 4 v :: rest →
        step s = .next { s with sched := rest, blkidx := BitVec.ofNat 16 (min (v.toNat % 2 ^ 16) s.params.wmemBlocks) })

/-- An idle legal write to WMEM or MSG of n bytes at off: byte k of the value is at off + k for k below n, every other byte
of memory is unchanged, and nothing else changes (R54, R63). -/
def Obligations.IdleMemoryWrites : Prop :=
  ∀ (s : State) (off n : Nat) (v : Word) (rest : List Event),
    s.phase = .idle → off < 2 ^ 32 → 0x04000 ≤ off → legal s.params off n →
    s.sched = .write (busAddr s.params off) n v :: rest →
    ∃ t, step s = .next t ∧ t = { s with sched := rest, mem := t.mem }
      ∧ (∀ k, k < n → (t.byteAt (off + k)).toNat = v.toNat / 2 ^ (8 * k) % 2 ^ 8)
      ∧ ∀ a, ¬ (off ≤ a ∧ a < off + n) → t.byteAt a = s.byteAt a

/-- The reserved register offsets read as 0 and ignore writes, with no error recorded, at any phase (R34). -/
def Obligations.ReservedRegistersReadZero : Prop :=
  ∀ (s : State) (off : Nat) (v : Word) (rest : List Event), off % 4 = 0 →
    ((0x014 ≤ off ∧ off ≤ 0x01C) ∨ (0x030 ≤ off ∧ off ≤ 0x03C) ∨ (0x060 ≤ off ∧ off ≤ 0x0FC)) →
    (s.sched = .read (busAddr s.params off) 4 :: rest →
      step s = .next { s with sched := rest, readLog := 0 :: s.readLog })
    ∧ (s.sched = .write (busAddr s.params off) 4 v :: rest → step s = .next { s with sched := rest })

/-- A write to A to D, HEX0 to HEX7 or a reserved register is ignored with no error, at any phase (R32, R33, R34, R60). -/
def Obligations.ReadOnlyWritesAreIgnored : Prop :=
  ∀ (s : State) (off : Nat) (v : Word) (rest : List Event),
    off ≤ 0x0FC → off % 4 = 0 → off ≠ 0x000 → off ≠ 0x004 → off ≠ 0x008 → off ≠ 0x00C → off ≠ 0x010 →
    s.sched = .write (busAddr s.params off) 4 v :: rest → step s = .next { s with sched := rest }

/-- What a legal read returns when it is exact (R62): STATUS, LEN, CMD, the reserved registers and MSG at any phase; NBLK,
BLKIDX, A to D, HEX0 to HEX7 and WMEM in phase IDLE. A read changes nothing but the read log. -/
def Obligations.ExactReads : Prop :=
  ∀ (s : State) (off n : Nat) (rest : List Event), s.sched = .read (busAddr s.params off) n :: rest →
    let returns (v : Word) : Prop := step s = .next { s with sched := rest, readLog := v :: s.readLog }
    let le (b : Nat → Byte) (k : Nat) : Word := b (k + 3) ++ b (k + 2) ++ b (k + 1) ++ b k
    (n = 4 ∧ off = 0x000 → returns 0)
    ∧ (n = 4 ∧ off = 0x004 → returns s.status)
    ∧ (n = 4 ∧ off = 0x008 → returns s.len)
    ∧ (n = 4 ∧ off % 4 = 0 ∧ ((0x014 ≤ off ∧ off ≤ 0x01C) ∨ (0x030 ≤ off ∧ off ≤ 0x03C) ∨ (0x060 ≤ off ∧ off ≤ 0x0FC))
        → returns 0)
    ∧ (n = 1 ∧ 0x10000 ≤ off ∧ off < 0x10000 + s.params.msgBytes ∧ off < 2 ^ 32 →
        returns (BitVec.setWidth 32 (s.byteAt off)))
    ∧ (n = 4 ∧ off % 4 = 0 ∧ 0x10000 ≤ off ∧ off + 4 ≤ 0x10000 + s.params.msgBytes ∧ off < 2 ^ 32 →
        returns (le s.byteAt off))
    ∧ (s.phase = .idle →
        (n = 4 ∧ off = 0x00C → returns (s.nblk.setWidth 32))
        ∧ (n = 4 ∧ off = 0x010 → returns (s.blkidx.setWidth 32))
        ∧ (n = 4 ∧ off = 0x020 → returns s.chain.a) ∧ (n = 4 ∧ off = 0x024 → returns s.chain.b)
        ∧ (n = 4 ∧ off = 0x028 → returns s.chain.c) ∧ (n = 4 ∧ off = 0x02C → returns s.chain.d)
        ∧ (∀ k : Fin 8, n = 4 ∧ off = 0x040 + 4 * k.val → returns (le (fun m => s.hex[m]!) (4 * k.val)))
        ∧ (n = 4 ∧ off % 4 = 0 ∧ 0x04000 ≤ off ∧ off + 4 ≤ 0x04000 + 64 * s.params.wmemBlocks ∧ off < 0x10000 →
            returns (le s.byteAt off)))

/-- A read of NBLK, BLKIDX, A to D, HEX0 to HEX7 or WMEM while BUSY returns a fresh free value, whatever it is, and
changes nothing else (R62, R40). -/
def Obligations.BusyReadsReturnAFreeValue : Prop :=
  ∀ (s : State) (off : Nat) (rest : List Event), s.phase ≠ .idle → legal s.params off 4 →
    (off = 0x00C ∨ off = 0x010 ∨ (0x020 ≤ off ∧ off ≤ 0x02C) ∨ (0x040 ≤ off ∧ off ≤ 0x05C)
      ∨ (0x04000 ≤ off ∧ off < 0x10000)) →
    s.sched = .read (busAddr s.params off) 4 :: rest →
    step s = .next { s with
      sched := rest, readLog := Config.any32 s.draws :: s.readLog, draws := s.draws + 1 }

/-- Mixed-width access to MSG: in phase IDLE, after a 32-bit write of v at word k of MSG, a byte read of byte i of that
word returns byte i of v (R54). -/
def Obligations.MsgWordWriteByteRead : Prop :=
  ∀ (s : State) (k : Nat) (i : Fin 4) (v : Word) (rest : List Event),
    s.phase = .idle → s.params.Legal → 4 * k + 4 ≤ s.params.msgBytes →
    s.sched = wr32 s.params (0x10000 + 4 * k) v :: rd8 s.params (0x10000 + 4 * k + i.val) :: rest →
    ∃ t, Host.Core.run Sys2Proof.core 2 s = .next t
      ∧ t.readLog = BitVec.ofNat 32 (v.toNat / 2 ^ (8 * i.val) % 2 ^ 8) :: s.readLog

/-! ### The step and the schedule -/

/-- A step runs the decoded instruction. A CMD word written in phase IDLE: a reserved code's instruction at once, on the
state without the event; a command is accepted, and the engine's next turn, on whatever state that phase is in, runs it. A
STEP or FSEL word at its dispatch: the decoded instruction, on the state without the event. The model's choice, not the
spec's: that the engine has the turn when the schedule is empty (log 5, from the fairness of R191), and the two clauses
about a STEP and an FSEL word, which are events of the model's own (log 9) in the model's byte form (log 18). -/
def Obligations.StepRunsTheDecodedInstruction : Prop :=
  (∀ (s : State) (w : Word) (instr : Instr) (rest : List Event),
      s.phase = .idle → s.sched = .write (busAddr s.params 0x000) 4 w :: rest →
      decode .cmd [byteOfWord w 0, byteOfWord w 1, byteOfWord w 2, byteOfWord w 3] = .ok instr →
      (commandOf instr = none → step s = exec instr { s with sched := rest })
      ∧ ∀ c, commandOf instr = some c →
          step s = .next (accept c { s with sched := rest })
          ∧ ∀ u : State, u.phase = .exec c →
              (u.sched = [] → step u = exec instr u)
              ∧ ∀ more, u.sched = .engine :: more → step u = exec instr { u with sched := more })
  ∧ (∀ (s : State) (b : BitVec 6) (instr : Instr) (rest : List Event),
      s.sched = .stepWord b :: rest → decode .step [b.setWidth 8] = .ok instr →
      step s = exec instr { s with sched := rest })
  ∧ (∀ (s : State) (b : BitVec 2) (instr : Instr) (rest : List Event),
      s.sched = .fselWord b :: rest → decode .fsel [b.setWidth 8] = .ok instr →
      step s = exec instr { s with sched := rest })

/-- A state with a table word placed runs exactly its instruction in the next step: a command on the accepted state,
anything else on the state itself, in phase IDLE for a reserved code (the placing is the model's, logs 8 and 17). -/
def Obligations.PlacedWordRunsNext : Prop :=
  ∀ (s : State) (nbits w : Nat) (instr : Instr), decodeTableWord nbits w = some instr →
    step (s.withFetchWord nbits w) =
      match commandOf instr with
      | some c => exec instr (accept c s)
      | none => exec instr (if instr.format = .cmd then { s with phase := .idle } else s)

/-- In phase IDLE the engine's turn, or a step with nothing scheduled, changes nothing else (R237). -/
def Obligations.IdleEngineDoesNothing : Prop :=
  ∀ s : State, s.phase = .idle →
    (s.sched = [] → step s = .next s) ∧ ∀ rest, s.sched = .engine :: rest → step s = .next { s with sched := rest }

/-- Reset, at any phase: every register takes its reset value, a command in progress is gone with none of its effects, and
what the memories then read as is a free value of the new epoch (R250, R251). That the parameters, the host's record and
the schedule stay, and that the new epoch is the old one plus 1, is the model's (log 19); a to d, X and the model's own port
take the value of the reset state (log 12). -/
def Obligations.ResetGivesTheResetState : Prop :=
  ∀ (s : State) (rest : List Event), s.sched = .reset :: rest →
    ∃ t, step s = .next t
      ∧ t = { State.reset with
          params := s.params, epoch := s.epoch + 1, draws := s.draws, readLog := s.readLog, sched := rest }
      ∧ t.chain = { a := 0x67452301, b := 0xEFCDAB89, c := 0x98BADCFE, d := 0x10325476 }
      ∧ t.phase = .idle ∧ t.status = 0 ∧ t.len = 0 ∧ t.nblk = 0 ∧ t.blkidx = 0 ∧ t.step = 0
      ∧ (∀ m : Fin 32, t.hex[m.val] = 0x00) ∧ ∀ a, t.byteAt a = Config.memInit (s.epoch + 1) a

/-! ### Whole-machine rules -/

/-- Nothing stops the machine: every instruction and every step goes on, in every state (R220, R221, R230). -/
def Obligations.NothingStopsTheMachine : Prop :=
  (∀ (instr : Instr) (s : State), goesOn (exec instr s)) ∧ ∀ s : State, goesOn (step s)

/-- No step changes the parameters (R6). -/
def Obligations.ParametersNeverChange : Prop :=
  ∀ s t : State, step s = .next t → t.params = s.params

/-- A to D change only by the completion of INIT, COMPRESS or DIGEST, or by reset (R21). -/
def Obligations.ChainingRegistersWriters : Prop :=
  ∀ s t : State, step s = .next t → t.chain ≠ s.chain →
    (∃ rest, s.sched = .reset :: rest)
    ∨ ((s.sched = [] ∨ ∃ rest, s.sched = .engine :: rest)
        ∧ (s.phase = .exec .init ∨ s.phase = .exec .compress ∨ s.phase = .exec .digest))

/-- HEX changes only by the completion of FOLD or DIGEST, or by reset (R33). -/
def Obligations.HexWriters : Prop :=
  ∀ s t : State, step s = .next t → t.hex ≠ s.hex →
    (∃ rest, s.sched = .reset :: rest)
    ∨ ((s.sched = [] ∨ ∃ rest, s.sched = .engine :: rest) ∧ (s.phase = .exec .fold ∨ s.phase = .exec .digest))

/-- DONE is set only by the completion of FOLD or of a DIGEST whose message fits, and cleared only by the acceptance of a
command other than NOP (a CMD write in phase IDLE) or by reset (R37). -/
def Obligations.DoneWriters : Prop :=
  ∀ s t : State, step s = .next t →
    (s.done = false → t.done = true →
      (s.sched = [] ∨ ∃ rest, s.sched = .engine :: rest)
      ∧ (s.phase = .exec .fold ∨ (s.phase = .exec .digest ∧ Fits s)))
    ∧ (s.done = true → t.done = false →
      (∃ rest, s.sched = .reset :: rest)
      ∨ (∃ addr v rest c, s.sched = .write addr 4 v :: rest ∧ busOffset s.params addr = 0x000
          ∧ s.phase = .idle ∧ t.phase = .exec c ∧ c ≠ .nop))

/-- ERR and ECODE change only by reset, by a STATUS write with bit 2 = 1, or by the recording of an error while ERR is 0,
which sets ERR and a code: the first error sticks, and no command clears it (R39). -/
def Obligations.ErrorRecordWriters : Prop :=
  ∀ s t : State, step s = .next t → ¬ (t.err = s.err ∧ t.ecode = s.ecode) →
    (∃ rest, s.sched = .reset :: rest)
    ∨ (∃ addr v rest, s.sched = .write addr 4 v :: rest ∧ busOffset s.params addr = 0x004 ∧ v.getLsbD 2 = true)
    ∨ (s.err = false ∧ t.err = true ∧ t.ecode ≠ .none)

/-- The engine's turn never writes LEN or a byte outside the populated WMEM, so never MSG (R61, R64). -/
def Obligations.EngineWritesNeitherLenNorMsg : Prop :=
  ∀ s t : State, s.params.Legal → (s.sched = [] ∨ ∃ rest, s.sched = .engine :: rest) → step s = .next t →
    t.len = s.len ∧ ∀ a, ¬ (0x04000 ≤ a ∧ a < 0x04000 + 64 * s.params.wmemBlocks) → t.byteAt a = s.byteAt a

/-- While BUSY no host access changes a command's inputs or disturbs it: LEN, NBLK, BLKIDX, both memories, A to D, HEX,
DONE and the phase stay (R63, R66). -/
def Obligations.BusyHostKeepsTheInputs : Prop :=
  ∀ (s t : State) (rest : List Event), s.phase ≠ .idle →
    ((∃ addr n, s.sched = .read addr n :: rest) ∨ ∃ addr n v, s.sched = .write addr n v :: rest) → step s = .next t →
    t = { s with sched := rest, err := t.err, ecode := t.ecode, readLog := t.readLog, draws := t.draws }

/-- The phase, and so BUSY, changes only by reset, by the engine's turn, which leaves it IDLE, or by the acceptance of the
command of a CMD write in phase IDLE (R25, R38). -/
def Obligations.PhaseWriters : Prop :=
  ∀ s t : State, step s = .next t → t.phase ≠ s.phase →
    (∃ rest, s.sched = .reset :: rest)
    ∨ ((s.sched = [] ∨ ∃ rest, s.sched = .engine :: rest) ∧ t.phase = .idle)
    ∨ (∃ addr v rest c, s.sched = .write addr 4 v :: rest ∧ busOffset s.params addr = 0x000
        ∧ s.phase = .idle ∧ v &&& 0xF = opCode c ∧ t.phase = .exec c)

/-- What a command leaves does not depend on when it completes: with a host access before the engine's turn or without it,
the phase, A to D, HEX, both memories, NBLK, BLKIDX, LEN and DONE come out the same (R234, R66). -/
def Obligations.ResultsDoNotDependOnLatency : Prop :=
  ∀ (s : State) (e : Event) (rest : List Event), s.phase ≠ .idle → s.sched = e :: .engine :: rest →
    ((∃ addr n, e = .read addr n) ∨ ∃ addr n v, e = .write addr n v) →
    ∃ t u, Host.Core.run Sys2Proof.core 2 s = .next t ∧ step { s with sched := .engine :: rest } = .next u
      ∧ t = { u with err := t.err, ecode := t.ecode, readLog := t.readLog, draws := t.draws }

/-- The invariant holds in the reset state. -/
def Obligations.InvariantHoldsAtReset : Prop := Inv State.reset

/-- Every step keeps the invariant: canonical memory over populated offsets, NBLK and BLKIDX within WMEM_BLOCKS, ERR with
ECODE, HEX the fold of A to D while DONE, DONE clear while a command other than NOP runs (R30, R31, R37, R39, R51). -/
def Obligations.StepKeepsTheInvariant : Prop :=
  ∀ s t : State, Inv s → step s = .next t → Inv t

/-- The working registers, the block buffer, the step counter and the model's result port are never observable: two states
that differ only there step to states that differ only there (R22, R40). -/
def Obligations.InternalsAreNeverObservable : Prop :=
  ∀ s t : State, SameOutside s t → ∃ s' t', step s = .next s' ∧ step t = .next t' ∧ SameOutside s' t'

/-- While BUSY no host access reveals anything of the engine-written state: two busy states that differ only in A to D,
HEX, NBLK, BLKIDX, WMEM and the internals answer every read alike and stay alike (R40, R62). -/
def Obligations.BusyReadsRevealNothing : Prop :=
  ∀ s t : State, s.phase ≠ .idle → SameButEngineState s t →
    ((∃ addr n rest, s.sched = .read addr n :: rest) ∨ ∃ addr n v rest, s.sched = .write addr n v :: rest) →
    ∃ s' t', step s = .next s' ∧ step t = .next t' ∧ SameButEngineState s' t'

/-! ### Encoding -/

/-- Decoding an encoded well-formed instruction gives it back, with every field at every value. The bytes of STEP and FSEL
words are the model's form (log 18), and a reserved row keeps its OP field (log 15). -/
def Obligations.DecodeOfEncode : Prop :=
  ∀ instr : Instr, instr.wf = true → decode instr.format (encode instr) = .ok instr

/-- What is decoded is well formed and of the format it was decoded in; a STEP or FSEL byte is its only encoding; two CMD
words with the same bits [3:0] decode alike, and to the same instruction only then; every STEP value below 64 and FSEL
value below 4 is defined (R80, R88, R89). The model's choice, not the spec's: the byte form of STEP and FSEL words, so that a
larger byte is rejected by name and a byte is the only encoding (log 18), and the kept OP field, so that two reserved codes
of one row decode apart (log 15). -/
def Obligations.DecodedInstructionsAreWellFormed : Prop :=
  (∀ (fmt : Format) (bytes : List Byte) (instr : Instr), decode fmt bytes = .ok instr →
      instr.wf = true ∧ instr.format = fmt ∧ (fmt ≠ .cmd → encode instr = bytes))
  ∧ (∀ v w : Word, decodeCmd v = decodeCmd w ↔ v &&& 0xF = w &&& 0xF)
  ∧ (∀ b : Byte, (b.toNat < 64 → ∃ instr, decode .step [b] = .ok instr)
      ∧ (64 ≤ b.toNat → decode .step [b] = .error .overSixBits)
      ∧ (b.toNat < 4 → ∃ instr, decode .fsel [b] = .ok instr)
      ∧ (4 ≤ b.toNat → decode .fsel [b] = .error .overTwoBits))

/-- Words written out from the tables of R86 and R87 decode to their rows, bits [31:4] of a CMD word being ignored. -/
def Obligations.SampleWordsDecode : Prop :=
  decodeCmd 0x00000000 = .nop ∧ decodeCmd 0x00000001 = .init ∧ decodeCmd 0x00000002 = .pack
  ∧ decodeCmd 0x00000003 = .compress ∧ decodeCmd 0x00000004 = .fold ∧ decodeCmd 0x00000005 = .digest
  ∧ decodeCmd 0x00000015 = .digest ∧ decodeCmd 0x00000007 = .reserved67 7 ∧ decodeCmd 0x00000009 = .reserved8F 9
  ∧ decodeStep 0b001111#6 = .ff 15 ∧ decodeStep 0b010001#6 = .gg 1 ∧ decodeStep 0b100000#6 = .hh 0
  ∧ decodeStep 0b111110#6 = .ii 14 ∧ decodeFsel 0b00#2 = .f ∧ decodeFsel 0b01#2 = .g ∧ decodeFsel 0b10#2 = .h
  ∧ decodeFsel 0b11#2 = .i

/-! ### The host's byte preparation -/

/-- Byte stuffing of one unit, in numbers: one byte below 128, two below 2048, three from there, a surrogate half being no
exception (R102, R103). -/
def Obligations.ByteStuffing : Prop :=
  ∀ c : BitVec 16, (stuffUnit c).map BitVec.toNat =
    if c.toNat < 128 then [c.toNat]
    else if c.toNat < 2048 then [192 + c.toNat / 64, 128 + c.toNat % 64]
    else [224 + c.toNat / 4096, 128 + c.toNat / 64 % 64, 128 + c.toNat % 64]

/-- Line-end normalisation: a CR LF pair becomes one LF and the scan goes on after it; any other unit is kept; so a text
with no CR is unchanged (R101). -/
def Obligations.LineEndNormalisation : Prop :=
  (∀ rest, normaliseLines (0x000D :: 0x000A :: rest) = 0x000A :: normaliseLines rest)
  ∧ (∀ u rest, ¬ (u = 0x000D ∧ rest.head? = some 0x000A) → normaliseLines (u :: rest) = u :: normaliseLines rest)
  ∧ normaliseLines [] = []
  ∧ ∀ text : List (BitVec 16), 0x000D ∉ text → normaliseLines text = text
end

