-- ==== Sys2Proof/Laws/State.lean ====
section
/-! SUPPORT. The fields of State under each named update: one lemma per field per update, so that no later proof unfolds
a record update. The updates are the shared operations of Machine/Ops.lean and the state changes of the commands, the
steps and the round functions. -/

namespace Sys2Proof.Machine

/-! #### clearError -/

@[simp] theorem clearError_params (s : State) :
    (clearError s).params = s.params := rfl
@[simp] theorem clearError_phase (s : State) :
    (clearError s).phase = s.phase := rfl
@[simp] theorem clearError_step (s : State) :
    (clearError s).step = s.step := rfl
@[simp] theorem clearError_done (s : State) :
    (clearError s).done = s.done := rfl
@[simp] theorem clearError_err (s : State) :
    (clearError s).err = false := rfl
@[simp] theorem clearError_ecode (s : State) :
    (clearError s).ecode = .none := rfl
@[simp] theorem clearError_blkidx (s : State) :
    (clearError s).blkidx = s.blkidx := rfl
@[simp] theorem clearError_nblk (s : State) :
    (clearError s).nblk = s.nblk := rfl
@[simp] theorem clearError_len (s : State) :
    (clearError s).len = s.len := rfl
@[simp] theorem clearError_sched (s : State) :
    (clearError s).sched = s.sched := rfl
@[simp] theorem clearError_readLog (s : State) :
    (clearError s).readLog = s.readLog := rfl
@[simp] theorem clearError_draws (s : State) :
    (clearError s).draws = s.draws := rfl
@[simp] theorem clearError_epoch (s : State) :
    (clearError s).epoch = s.epoch := rfl
@[simp] theorem clearError_fval (s : State) :
    (clearError s).fval = s.fval := rfl
@[simp] theorem clearError_chain (s : State) :
    (clearError s).chain = s.chain := rfl
@[simp] theorem clearError_work (s : State) :
    (clearError s).work = s.work := rfl
@[simp] theorem clearError_X (s : State) :
    (clearError s).X = s.X := rfl
@[simp] theorem clearError_hex (s : State) :
    (clearError s).hex = s.hex := rfl
@[simp] theorem clearError_mem (s : State) :
    (clearError s).mem = s.mem := rfl

/-! #### accept -/

@[simp] theorem accept_params (c : Command) (s : State) :
    (accept c s).params = s.params := rfl
@[simp] theorem accept_phase (c : Command) (s : State) :
    (accept c s).phase = .exec c := rfl
@[simp] theorem accept_step (c : Command) (s : State) :
    (accept c s).step = s.step := rfl
@[simp] theorem accept_done (c : Command) (s : State) :
    (accept c s).done = doneAfterAccept c s.done := rfl
@[simp] theorem accept_err (c : Command) (s : State) :
    (accept c s).err = s.err := rfl
@[simp] theorem accept_ecode (c : Command) (s : State) :
    (accept c s).ecode = s.ecode := rfl
@[simp] theorem accept_blkidx (c : Command) (s : State) :
    (accept c s).blkidx = s.blkidx := rfl
@[simp] theorem accept_nblk (c : Command) (s : State) :
    (accept c s).nblk = s.nblk := rfl
@[simp] theorem accept_len (c : Command) (s : State) :
    (accept c s).len = s.len := rfl
@[simp] theorem accept_sched (c : Command) (s : State) :
    (accept c s).sched = s.sched := rfl
@[simp] theorem accept_readLog (c : Command) (s : State) :
    (accept c s).readLog = s.readLog := rfl
@[simp] theorem accept_draws (c : Command) (s : State) :
    (accept c s).draws = s.draws := rfl
@[simp] theorem accept_epoch (c : Command) (s : State) :
    (accept c s).epoch = s.epoch := rfl
@[simp] theorem accept_fval (c : Command) (s : State) :
    (accept c s).fval = s.fval := rfl
@[simp] theorem accept_chain (c : Command) (s : State) :
    (accept c s).chain = s.chain := rfl
@[simp] theorem accept_work (c : Command) (s : State) :
    (accept c s).work = s.work := rfl
@[simp] theorem accept_X (c : Command) (s : State) :
    (accept c s).X = s.X := rfl
@[simp] theorem accept_hex (c : Command) (s : State) :
    (accept c s).hex = s.hex := rfl
@[simp] theorem accept_mem (c : Command) (s : State) :
    (accept c s).mem = s.mem := rfl

/-! #### complete -/

@[simp] theorem complete_params (s : State) :
    (complete s).params = s.params := rfl
@[simp] theorem complete_phase (s : State) :
    (complete s).phase = .idle := rfl
@[simp] theorem complete_step (s : State) :
    (complete s).step = s.step := rfl
@[simp] theorem complete_done (s : State) :
    (complete s).done = s.done := rfl
@[simp] theorem complete_err (s : State) :
    (complete s).err = s.err := rfl
@[simp] theorem complete_ecode (s : State) :
    (complete s).ecode = s.ecode := rfl
@[simp] theorem complete_blkidx (s : State) :
    (complete s).blkidx = s.blkidx := rfl
@[simp] theorem complete_nblk (s : State) :
    (complete s).nblk = s.nblk := rfl
@[simp] theorem complete_len (s : State) :
    (complete s).len = s.len := rfl
@[simp] theorem complete_sched (s : State) :
    (complete s).sched = s.sched := rfl
@[simp] theorem complete_readLog (s : State) :
    (complete s).readLog = s.readLog := rfl
@[simp] theorem complete_draws (s : State) :
    (complete s).draws = s.draws := rfl
@[simp] theorem complete_epoch (s : State) :
    (complete s).epoch = s.epoch := rfl
@[simp] theorem complete_fval (s : State) :
    (complete s).fval = s.fval := rfl
@[simp] theorem complete_chain (s : State) :
    (complete s).chain = s.chain := rfl
@[simp] theorem complete_work (s : State) :
    (complete s).work = s.work := rfl
@[simp] theorem complete_X (s : State) :
    (complete s).X = s.X := rfl
@[simp] theorem complete_hex (s : State) :
    (complete s).hex = s.hex := rfl
@[simp] theorem complete_mem (s : State) :
    (complete s).mem = s.mem := rfl

/-! #### respond -/

@[simp] theorem respond_params (v : Word) (s : State) :
    (respond v s).params = s.params := rfl
@[simp] theorem respond_phase (v : Word) (s : State) :
    (respond v s).phase = s.phase := rfl
@[simp] theorem respond_step (v : Word) (s : State) :
    (respond v s).step = s.step := rfl
@[simp] theorem respond_done (v : Word) (s : State) :
    (respond v s).done = s.done := rfl
@[simp] theorem respond_err (v : Word) (s : State) :
    (respond v s).err = s.err := rfl
@[simp] theorem respond_ecode (v : Word) (s : State) :
    (respond v s).ecode = s.ecode := rfl
@[simp] theorem respond_blkidx (v : Word) (s : State) :
    (respond v s).blkidx = s.blkidx := rfl
@[simp] theorem respond_nblk (v : Word) (s : State) :
    (respond v s).nblk = s.nblk := rfl
@[simp] theorem respond_len (v : Word) (s : State) :
    (respond v s).len = s.len := rfl
@[simp] theorem respond_sched (v : Word) (s : State) :
    (respond v s).sched = s.sched := rfl
@[simp] theorem respond_readLog (v : Word) (s : State) :
    (respond v s).readLog = v :: s.readLog := rfl
@[simp] theorem respond_draws (v : Word) (s : State) :
    (respond v s).draws = s.draws := rfl
@[simp] theorem respond_epoch (v : Word) (s : State) :
    (respond v s).epoch = s.epoch := rfl
@[simp] theorem respond_fval (v : Word) (s : State) :
    (respond v s).fval = s.fval := rfl
@[simp] theorem respond_chain (v : Word) (s : State) :
    (respond v s).chain = s.chain := rfl
@[simp] theorem respond_work (v : Word) (s : State) :
    (respond v s).work = s.work := rfl
@[simp] theorem respond_X (v : Word) (s : State) :
    (respond v s).X = s.X := rfl
@[simp] theorem respond_hex (v : Word) (s : State) :
    (respond v s).hex = s.hex := rfl
@[simp] theorem respond_mem (v : Word) (s : State) :
    (respond v s).mem = s.mem := rfl

/-! #### respondAny -/

@[simp] theorem respondAny_params (s : State) :
    (respondAny s).params = s.params := rfl
@[simp] theorem respondAny_phase (s : State) :
    (respondAny s).phase = s.phase := rfl
@[simp] theorem respondAny_step (s : State) :
    (respondAny s).step = s.step := rfl
@[simp] theorem respondAny_done (s : State) :
    (respondAny s).done = s.done := rfl
@[simp] theorem respondAny_err (s : State) :
    (respondAny s).err = s.err := rfl
@[simp] theorem respondAny_ecode (s : State) :
    (respondAny s).ecode = s.ecode := rfl
@[simp] theorem respondAny_blkidx (s : State) :
    (respondAny s).blkidx = s.blkidx := rfl
@[simp] theorem respondAny_nblk (s : State) :
    (respondAny s).nblk = s.nblk := rfl
@[simp] theorem respondAny_len (s : State) :
    (respondAny s).len = s.len := rfl
@[simp] theorem respondAny_sched (s : State) :
    (respondAny s).sched = s.sched := rfl
@[simp] theorem respondAny_readLog (s : State) :
    (respondAny s).readLog = Config.any32 s.draws :: s.readLog := rfl
@[simp] theorem respondAny_draws (s : State) :
    (respondAny s).draws = s.draws + 1 := rfl
@[simp] theorem respondAny_epoch (s : State) :
    (respondAny s).epoch = s.epoch := rfl
@[simp] theorem respondAny_fval (s : State) :
    (respondAny s).fval = s.fval := rfl
@[simp] theorem respondAny_chain (s : State) :
    (respondAny s).chain = s.chain := rfl
@[simp] theorem respondAny_work (s : State) :
    (respondAny s).work = s.work := rfl
@[simp] theorem respondAny_X (s : State) :
    (respondAny s).X = s.X := rfl
@[simp] theorem respondAny_hex (s : State) :
    (respondAny s).hex = s.hex := rfl
@[simp] theorem respondAny_mem (s : State) :
    (respondAny s).mem = s.mem := rfl

/-! #### loadIv -/

@[simp] theorem loadIv_params (s : State) :
    (loadIv s).params = s.params := rfl
@[simp] theorem loadIv_phase (s : State) :
    (loadIv s).phase = s.phase := rfl
@[simp] theorem loadIv_step (s : State) :
    (loadIv s).step = s.step := rfl
@[simp] theorem loadIv_done (s : State) :
    (loadIv s).done = s.done := rfl
@[simp] theorem loadIv_err (s : State) :
    (loadIv s).err = s.err := rfl
@[simp] theorem loadIv_ecode (s : State) :
    (loadIv s).ecode = s.ecode := rfl
@[simp] theorem loadIv_blkidx (s : State) :
    (loadIv s).blkidx = 0 := rfl
@[simp] theorem loadIv_nblk (s : State) :
    (loadIv s).nblk = s.nblk := rfl
@[simp] theorem loadIv_len (s : State) :
    (loadIv s).len = s.len := rfl
@[simp] theorem loadIv_sched (s : State) :
    (loadIv s).sched = s.sched := rfl
@[simp] theorem loadIv_readLog (s : State) :
    (loadIv s).readLog = s.readLog := rfl
@[simp] theorem loadIv_draws (s : State) :
    (loadIv s).draws = s.draws := rfl
@[simp] theorem loadIv_epoch (s : State) :
    (loadIv s).epoch = s.epoch := rfl
@[simp] theorem loadIv_fval (s : State) :
    (loadIv s).fval = s.fval := rfl
@[simp] theorem loadIv_chain (s : State) :
    (loadIv s).chain = iv := rfl
@[simp] theorem loadIv_work (s : State) :
    (loadIv s).work = s.work := rfl
@[simp] theorem loadIv_X (s : State) :
    (loadIv s).X = s.X := rfl
@[simp] theorem loadIv_hex (s : State) :
    (loadIv s).hex = s.hex := rfl
@[simp] theorem loadIv_mem (s : State) :
    (loadIv s).mem = s.mem := rfl

/-! #### foldDigest -/

@[simp] theorem foldDigest_params (s : State) :
    (foldDigest s).params = s.params := rfl
@[simp] theorem foldDigest_phase (s : State) :
    (foldDigest s).phase = s.phase := rfl
@[simp] theorem foldDigest_step (s : State) :
    (foldDigest s).step = s.step := rfl
@[simp] theorem foldDigest_done (s : State) :
    (foldDigest s).done = true := rfl
@[simp] theorem foldDigest_err (s : State) :
    (foldDigest s).err = s.err := rfl
@[simp] theorem foldDigest_ecode (s : State) :
    (foldDigest s).ecode = s.ecode := rfl
@[simp] theorem foldDigest_blkidx (s : State) :
    (foldDigest s).blkidx = s.blkidx := rfl
@[simp] theorem foldDigest_nblk (s : State) :
    (foldDigest s).nblk = s.nblk := rfl
@[simp] theorem foldDigest_len (s : State) :
    (foldDigest s).len = s.len := rfl
@[simp] theorem foldDigest_sched (s : State) :
    (foldDigest s).sched = s.sched := rfl
@[simp] theorem foldDigest_readLog (s : State) :
    (foldDigest s).readLog = s.readLog := rfl
@[simp] theorem foldDigest_draws (s : State) :
    (foldDigest s).draws = s.draws := rfl
@[simp] theorem foldDigest_epoch (s : State) :
    (foldDigest s).epoch = s.epoch := rfl
@[simp] theorem foldDigest_fval (s : State) :
    (foldDigest s).fval = s.fval := rfl
@[simp] theorem foldDigest_chain (s : State) :
    (foldDigest s).chain = s.chain := rfl
@[simp] theorem foldDigest_work (s : State) :
    (foldDigest s).work = s.work := rfl
@[simp] theorem foldDigest_X (s : State) :
    (foldDigest s).X = s.X := rfl
@[simp] theorem foldDigest_hex (s : State) :
    (foldDigest s).hex = foldHex s.chain := rfl
@[simp] theorem foldDigest_mem (s : State) :
    (foldDigest s).mem = s.mem := rfl

/-! #### packMessage -/

@[simp] theorem packMessage_params (s : State) :
    (packMessage s).params = s.params := rfl
@[simp] theorem packMessage_phase (s : State) :
    (packMessage s).phase = s.phase := rfl
@[simp] theorem packMessage_step (s : State) :
    (packMessage s).step = s.step := rfl
@[simp] theorem packMessage_done (s : State) :
    (packMessage s).done = s.done := rfl
@[simp] theorem packMessage_err (s : State) :
    (packMessage s).err = s.err := rfl
@[simp] theorem packMessage_ecode (s : State) :
    (packMessage s).ecode = s.ecode := rfl
@[simp] theorem packMessage_blkidx (s : State) :
    (packMessage s).blkidx = 0 := rfl
@[simp] theorem packMessage_nblk (s : State) :
    (packMessage s).nblk = BitVec.ofNat 16 (blockCount s.len.toNat) := rfl
@[simp] theorem packMessage_len (s : State) :
    (packMessage s).len = s.len := rfl
@[simp] theorem packMessage_sched (s : State) :
    (packMessage s).sched = s.sched := rfl
@[simp] theorem packMessage_readLog (s : State) :
    (packMessage s).readLog = s.readLog := rfl
@[simp] theorem packMessage_draws (s : State) :
    (packMessage s).draws = s.draws := rfl
@[simp] theorem packMessage_epoch (s : State) :
    (packMessage s).epoch = s.epoch := rfl
@[simp] theorem packMessage_fval (s : State) :
    (packMessage s).fval = s.fval := rfl
@[simp] theorem packMessage_chain (s : State) :
    (packMessage s).chain = s.chain := rfl
@[simp] theorem packMessage_work (s : State) :
    (packMessage s).work = s.work := rfl
@[simp] theorem packMessage_X (s : State) :
    (packMessage s).X = s.X := rfl
@[simp] theorem packMessage_hex (s : State) :
    (packMessage s).hex = s.hex := rfl
@[simp] theorem packMessage_mem (s : State) :
    (packMessage s).mem = packMemory s.epoch s.len s.mem := rfl

/-! #### stepOp -/

@[simp] theorem stepOp_params (fn : Word → Word → Word → Word) (i : BitVec 6) (s : State) :
    (stepOp fn i s).params = s.params := rfl
@[simp] theorem stepOp_phase (fn : Word → Word → Word → Word) (i : BitVec 6) (s : State) :
    (stepOp fn i s).phase = s.phase := rfl
@[simp] theorem stepOp_step (fn : Word → Word → Word → Word) (i : BitVec 6) (s : State) :
    (stepOp fn i s).step = i + 1 := rfl
@[simp] theorem stepOp_done (fn : Word → Word → Word → Word) (i : BitVec 6) (s : State) :
    (stepOp fn i s).done = s.done := rfl
@[simp] theorem stepOp_err (fn : Word → Word → Word → Word) (i : BitVec 6) (s : State) :
    (stepOp fn i s).err = s.err := rfl
@[simp] theorem stepOp_ecode (fn : Word → Word → Word → Word) (i : BitVec 6) (s : State) :
    (stepOp fn i s).ecode = s.ecode := rfl
@[simp] theorem stepOp_blkidx (fn : Word → Word → Word → Word) (i : BitVec 6) (s : State) :
    (stepOp fn i s).blkidx = s.blkidx := rfl
@[simp] theorem stepOp_nblk (fn : Word → Word → Word → Word) (i : BitVec 6) (s : State) :
    (stepOp fn i s).nblk = s.nblk := rfl
@[simp] theorem stepOp_len (fn : Word → Word → Word → Word) (i : BitVec 6) (s : State) :
    (stepOp fn i s).len = s.len := rfl
@[simp] theorem stepOp_sched (fn : Word → Word → Word → Word) (i : BitVec 6) (s : State) :
    (stepOp fn i s).sched = s.sched := rfl
@[simp] theorem stepOp_readLog (fn : Word → Word → Word → Word) (i : BitVec 6) (s : State) :
    (stepOp fn i s).readLog = s.readLog := rfl
@[simp] theorem stepOp_draws (fn : Word → Word → Word → Word) (i : BitVec 6) (s : State) :
    (stepOp fn i s).draws = s.draws := rfl
@[simp] theorem stepOp_epoch (fn : Word → Word → Word → Word) (i : BitVec 6) (s : State) :
    (stepOp fn i s).epoch = s.epoch := rfl
@[simp] theorem stepOp_fval (fn : Word → Word → Word → Word) (i : BitVec 6) (s : State) :
    (stepOp fn i s).fval = s.fval := rfl
@[simp] theorem stepOp_chain (fn : Word → Word → Word → Word) (i : BitVec 6) (s : State) :
    (stepOp fn i s).chain = s.chain := rfl
@[simp] theorem stepOp_work (fn : Word → Word → Word → Word) (i : BitVec 6) (s : State) :
    (stepOp fn i s).work = stepRegs fn s.X i s.work := rfl
@[simp] theorem stepOp_X (fn : Word → Word → Word → Word) (i : BitVec 6) (s : State) :
    (stepOp fn i s).X = s.X := rfl
@[simp] theorem stepOp_hex (fn : Word → Word → Word → Word) (i : BitVec 6) (s : State) :
    (stepOp fn i s).hex = s.hex := rfl
@[simp] theorem stepOp_mem (fn : Word → Word → Word → Word) (i : BitVec 6) (s : State) :
    (stepOp fn i s).mem = s.mem := rfl

/-! #### compressBlock -/

@[simp] theorem compressBlock_params (b : Nat) (s : State) :
    (compressBlock b s).params = s.params := rfl
@[simp] theorem compressBlock_phase (b : Nat) (s : State) :
    (compressBlock b s).phase = s.phase := rfl
@[simp] theorem compressBlock_step (b : Nat) (s : State) :
    (compressBlock b s).step = 0 := rfl
@[simp] theorem compressBlock_done (b : Nat) (s : State) :
    (compressBlock b s).done = s.done := rfl
@[simp] theorem compressBlock_err (b : Nat) (s : State) :
    (compressBlock b s).err = s.err := rfl
@[simp] theorem compressBlock_ecode (b : Nat) (s : State) :
    (compressBlock b s).ecode = s.ecode := rfl
@[simp] theorem compressBlock_blkidx (b : Nat) (s : State) :
    (compressBlock b s).blkidx = s.blkidx := rfl
@[simp] theorem compressBlock_nblk (b : Nat) (s : State) :
    (compressBlock b s).nblk = s.nblk := rfl
@[simp] theorem compressBlock_len (b : Nat) (s : State) :
    (compressBlock b s).len = s.len := rfl
@[simp] theorem compressBlock_sched (b : Nat) (s : State) :
    (compressBlock b s).sched = s.sched := rfl
@[simp] theorem compressBlock_readLog (b : Nat) (s : State) :
    (compressBlock b s).readLog = s.readLog := rfl
@[simp] theorem compressBlock_draws (b : Nat) (s : State) :
    (compressBlock b s).draws = s.draws := rfl
@[simp] theorem compressBlock_epoch (b : Nat) (s : State) :
    (compressBlock b s).epoch = s.epoch := rfl
@[simp] theorem compressBlock_fval (b : Nat) (s : State) :
    (compressBlock b s).fval = s.fval := rfl
@[simp] theorem compressBlock_chain (b : Nat) (s : State) :
    (compressBlock b s).chain = s.chain.add (blockRegs b s) := rfl
@[simp] theorem compressBlock_work (b : Nat) (s : State) :
    (compressBlock b s).work = blockRegs b s := rfl
@[simp] theorem compressBlock_X (b : Nat) (s : State) :
    (compressBlock b s).X = blockAt b s := rfl
@[simp] theorem compressBlock_hex (b : Nat) (s : State) :
    (compressBlock b s).hex = s.hex := rfl
@[simp] theorem compressBlock_mem (b : Nat) (s : State) :
    (compressBlock b s).mem = s.mem := rfl

/-! #### compressNext -/

@[simp] theorem compressNext_params (s : State) :
    (compressNext s).params = s.params := rfl
@[simp] theorem compressNext_phase (s : State) :
    (compressNext s).phase = s.phase := rfl
@[simp] theorem compressNext_step (s : State) :
    (compressNext s).step = 0 := rfl
@[simp] theorem compressNext_done (s : State) :
    (compressNext s).done = s.done := rfl
@[simp] theorem compressNext_err (s : State) :
    (compressNext s).err = s.err := rfl
@[simp] theorem compressNext_ecode (s : State) :
    (compressNext s).ecode = s.ecode := rfl
@[simp] theorem compressNext_blkidx (s : State) :
    (compressNext s).blkidx = s.blkidx + 1 := rfl
@[simp] theorem compressNext_nblk (s : State) :
    (compressNext s).nblk = s.nblk := rfl
@[simp] theorem compressNext_len (s : State) :
    (compressNext s).len = s.len := rfl
@[simp] theorem compressNext_sched (s : State) :
    (compressNext s).sched = s.sched := rfl
@[simp] theorem compressNext_readLog (s : State) :
    (compressNext s).readLog = s.readLog := rfl
@[simp] theorem compressNext_draws (s : State) :
    (compressNext s).draws = s.draws := rfl
@[simp] theorem compressNext_epoch (s : State) :
    (compressNext s).epoch = s.epoch := rfl
@[simp] theorem compressNext_fval (s : State) :
    (compressNext s).fval = s.fval := rfl
@[simp] theorem compressNext_chain (s : State) :
    (compressNext s).chain = s.chain.add (blockRegs s.blkidx.toNat s) := rfl
@[simp] theorem compressNext_work (s : State) :
    (compressNext s).work = blockRegs s.blkidx.toNat s := rfl
@[simp] theorem compressNext_X (s : State) :
    (compressNext s).X = blockAt s.blkidx.toNat s := rfl
@[simp] theorem compressNext_hex (s : State) :
    (compressNext s).hex = s.hex := rfl
@[simp] theorem compressNext_mem (s : State) :
    (compressNext s).mem = s.mem := rfl

/-! #### roundOp -/

@[simp] theorem roundOp_params (fn : Word → Word → Word → Word) (s : State) :
    (roundOp fn s).params = s.params := rfl
@[simp] theorem roundOp_phase (fn : Word → Word → Word → Word) (s : State) :
    (roundOp fn s).phase = s.phase := rfl
@[simp] theorem roundOp_step (fn : Word → Word → Word → Word) (s : State) :
    (roundOp fn s).step = s.step := rfl
@[simp] theorem roundOp_done (fn : Word → Word → Word → Word) (s : State) :
    (roundOp fn s).done = s.done := rfl
@[simp] theorem roundOp_err (fn : Word → Word → Word → Word) (s : State) :
    (roundOp fn s).err = s.err := rfl
@[simp] theorem roundOp_ecode (fn : Word → Word → Word → Word) (s : State) :
    (roundOp fn s).ecode = s.ecode := rfl
@[simp] theorem roundOp_blkidx (fn : Word → Word → Word → Word) (s : State) :
    (roundOp fn s).blkidx = s.blkidx := rfl
@[simp] theorem roundOp_nblk (fn : Word → Word → Word → Word) (s : State) :
    (roundOp fn s).nblk = s.nblk := rfl
@[simp] theorem roundOp_len (fn : Word → Word → Word → Word) (s : State) :
    (roundOp fn s).len = s.len := rfl
@[simp] theorem roundOp_sched (fn : Word → Word → Word → Word) (s : State) :
    (roundOp fn s).sched = s.sched := rfl
@[simp] theorem roundOp_readLog (fn : Word → Word → Word → Word) (s : State) :
    (roundOp fn s).readLog = s.readLog := rfl
@[simp] theorem roundOp_draws (fn : Word → Word → Word → Word) (s : State) :
    (roundOp fn s).draws = s.draws := rfl
@[simp] theorem roundOp_epoch (fn : Word → Word → Word → Word) (s : State) :
    (roundOp fn s).epoch = s.epoch := rfl
@[simp] theorem roundOp_fval (fn : Word → Word → Word → Word) (s : State) :
    (roundOp fn s).fval = applyArgs fn (targetOf (tselOf s.step)) s.work := rfl
@[simp] theorem roundOp_chain (fn : Word → Word → Word → Word) (s : State) :
    (roundOp fn s).chain = s.chain := rfl
@[simp] theorem roundOp_work (fn : Word → Word → Word → Word) (s : State) :
    (roundOp fn s).work = s.work := rfl
@[simp] theorem roundOp_X (fn : Word → Word → Word → Word) (s : State) :
    (roundOp fn s).X = s.X := rfl
@[simp] theorem roundOp_hex (fn : Word → Word → Word → Word) (s : State) :
    (roundOp fn s).hex = s.hex := rfl
@[simp] theorem roundOp_mem (fn : Word → Word → Word → Word) (s : State) :
    (roundOp fn s).mem = s.mem := rfl

/-! #### raiseError -/

@[simp] theorem raiseError_params (code : ErrCode) (s : State) :
    (raiseError code s).params = s.params := by
  unfold raiseError; split <;> rfl
@[simp] theorem raiseError_phase (code : ErrCode) (s : State) :
    (raiseError code s).phase = s.phase := by
  unfold raiseError; split <;> rfl
@[simp] theorem raiseError_step (code : ErrCode) (s : State) :
    (raiseError code s).step = s.step := by
  unfold raiseError; split <;> rfl
@[simp] theorem raiseError_done (code : ErrCode) (s : State) :
    (raiseError code s).done = s.done := by
  unfold raiseError; split <;> rfl
@[simp] theorem raiseError_blkidx (code : ErrCode) (s : State) :
    (raiseError code s).blkidx = s.blkidx := by
  unfold raiseError; split <;> rfl
@[simp] theorem raiseError_nblk (code : ErrCode) (s : State) :
    (raiseError code s).nblk = s.nblk := by
  unfold raiseError; split <;> rfl
@[simp] theorem raiseError_len (code : ErrCode) (s : State) :
    (raiseError code s).len = s.len := by
  unfold raiseError; split <;> rfl
@[simp] theorem raiseError_sched (code : ErrCode) (s : State) :
    (raiseError code s).sched = s.sched := by
  unfold raiseError; split <;> rfl
@[simp] theorem raiseError_readLog (code : ErrCode) (s : State) :
    (raiseError code s).readLog = s.readLog := by
  unfold raiseError; split <;> rfl
@[simp] theorem raiseError_draws (code : ErrCode) (s : State) :
    (raiseError code s).draws = s.draws := by
  unfold raiseError; split <;> rfl
@[simp] theorem raiseError_epoch (code : ErrCode) (s : State) :
    (raiseError code s).epoch = s.epoch := by
  unfold raiseError; split <;> rfl
@[simp] theorem raiseError_fval (code : ErrCode) (s : State) :
    (raiseError code s).fval = s.fval := by
  unfold raiseError; split <;> rfl
@[simp] theorem raiseError_chain (code : ErrCode) (s : State) :
    (raiseError code s).chain = s.chain := by
  unfold raiseError; split <;> rfl
@[simp] theorem raiseError_work (code : ErrCode) (s : State) :
    (raiseError code s).work = s.work := by
  unfold raiseError; split <;> rfl
@[simp] theorem raiseError_X (code : ErrCode) (s : State) :
    (raiseError code s).X = s.X := by
  unfold raiseError; split <;> rfl
@[simp] theorem raiseError_hex (code : ErrCode) (s : State) :
    (raiseError code s).hex = s.hex := by
  unfold raiseError; split <;> rfl
@[simp] theorem raiseError_mem (code : ErrCode) (s : State) :
    (raiseError code s).mem = s.mem := by
  unfold raiseError; split <;> rfl
@[simp] theorem raiseError_err (code : ErrCode) (s : State) : (raiseError code s).err = true := by
  unfold raiseError; split <;> simp_all
@[simp] theorem raiseError_ecode (code : ErrCode) (s : State) :
    (raiseError code s).ecode = if s.err then s.ecode else code := by
  unfold raiseError; split <;> rfl

/-! #### resetEngine -/

@[simp] theorem resetEngine_params (s : State) :
    (resetEngine s).params = s.params := rfl
@[simp] theorem resetEngine_phase (s : State) :
    (resetEngine s).phase = State.reset.phase := rfl
@[simp] theorem resetEngine_step (s : State) :
    (resetEngine s).step = State.reset.step := rfl
@[simp] theorem resetEngine_done (s : State) :
    (resetEngine s).done = State.reset.done := rfl
@[simp] theorem resetEngine_err (s : State) :
    (resetEngine s).err = State.reset.err := rfl
@[simp] theorem resetEngine_ecode (s : State) :
    (resetEngine s).ecode = State.reset.ecode := rfl
@[simp] theorem resetEngine_blkidx (s : State) :
    (resetEngine s).blkidx = State.reset.blkidx := rfl
@[simp] theorem resetEngine_nblk (s : State) :
    (resetEngine s).nblk = State.reset.nblk := rfl
@[simp] theorem resetEngine_len (s : State) :
    (resetEngine s).len = State.reset.len := rfl
@[simp] theorem resetEngine_sched (s : State) :
    (resetEngine s).sched = s.sched := rfl
@[simp] theorem resetEngine_readLog (s : State) :
    (resetEngine s).readLog = s.readLog := rfl
@[simp] theorem resetEngine_draws (s : State) :
    (resetEngine s).draws = s.draws := rfl
@[simp] theorem resetEngine_epoch (s : State) :
    (resetEngine s).epoch = s.epoch + 1 := rfl
@[simp] theorem resetEngine_fval (s : State) :
    (resetEngine s).fval = State.reset.fval := rfl
@[simp] theorem resetEngine_chain (s : State) :
    (resetEngine s).chain = State.reset.chain := rfl
@[simp] theorem resetEngine_work (s : State) :
    (resetEngine s).work = State.reset.work := rfl
@[simp] theorem resetEngine_X (s : State) :
    (resetEngine s).X = State.reset.X := rfl
@[simp] theorem resetEngine_hex (s : State) :
    (resetEngine s).hex = State.reset.hex := rfl
@[simp] theorem resetEngine_mem (s : State) :
    (resetEngine s).mem = State.reset.mem := rfl

end Sys2Proof.Machine
end

