-- ==== Sys2Proof/Laws/Memory.lean ====
section
/-! SUPPORT. The byte store: a read after a write, the canonical form, words and stores built from bytes. -/

namespace Sys2Proof.Machine

/-! ### One byte -/

@[simp] theorem read?_write_same (m : Memory) (a : Nat) (v : Byte) : (m.write a v).read? a = some v := by
  induction m with
  | nil => simp [Memory.write, Memory.read?]
  | cons c rest ih =>
    obtain ⟨k, w⟩ := c
    unfold Memory.write
    split
    · have : k ≠ a := by omega
      simp [Memory.read?, this, ih]
    · split <;> simp [Memory.read?]

theorem read?_write_other (m : Memory) {a b : Nat} (v : Byte) (h : b ≠ a) : (m.write a v).read? b = m.read? b := by
  induction m with
  | nil => simp [Memory.write, Memory.read?, Ne.symm h]
  | cons c rest ih =>
    obtain ⟨k, w⟩ := c
    unfold Memory.write
    split
    · simp [Memory.read?, ih]
    · split
      · next hk => subst hk; simp [Memory.read?, Ne.symm h]
      · simp [Memory.read?, Ne.symm h]

/-- The cells after a write are the written one and cells that were there. -/
theorem mem_write {m : Memory} {a : Nat} {v : Byte} {c : Host.Cell} (h : c ∈ m.write a v) : c = (a, v) ∨ c ∈ m := by
  induction m with
  | nil => simpa [Memory.write] using h
  | cons d rest ih =>
    obtain ⟨k, w⟩ := d
    unfold Memory.write at h
    split at h
    · rcases List.mem_cons.1 h with h | h
      · exact .inr (by simp [h])
      · rcases ih h with h | h
        · exact .inl h
        · exact .inr (List.mem_cons_of_mem _ h)
    · split at h
      · rcases List.mem_cons.1 h with h | h
        · exact .inl h
        · exact .inr (List.mem_cons_of_mem _ h)
      · rcases List.mem_cons.1 h with h | h
        · exact .inl h
        · exact .inr h

/-- A write keeps the canonical form. -/
theorem wf_write {m : Memory} (a : Nat) (v : Byte) (h : Memory.wf m) : Memory.wf (m.write a v) := by
  induction m with
  | nil => simp [Memory.write, Memory.wf]
  | cons d rest ih =>
    obtain ⟨k, w⟩ := d
    have hk := List.pairwise_cons.1 h
    unfold Memory.write
    split
    · next hlt =>
      refine List.pairwise_cons.2 ⟨fun c hc => ?_, ih hk.2⟩
      rcases mem_write hc with rfl | hc
      · exact hlt
      · exact hk.1 c hc
    · split
      · next heq => subst heq; exact List.pairwise_cons.2 ⟨hk.1, hk.2⟩
      · next h1 h2 =>
        refine List.pairwise_cons.2 ⟨fun c hc => ?_, h⟩
        rcases List.mem_cons.1 hc with rfl | hc
        · show a < k; omega
        · have := hk.1 c hc
          show a < c.1
          have : k < c.1 := this
          omega

theorem byte_write (e : Nat) (m : Memory) (a b : Nat) (v : Byte) :
    Memory.byte e (m.write a v) b = if b = a then v else Memory.byte e m b := by
  unfold Memory.byte
  split
  · next h => subst h; simp
  · next h => rw [read?_write_other m v h]

/-! ### Stores of several bytes -/

/-- Everything a store does: byte k of the value at offset a + k, every other byte as before. -/
theorem byte_store (e : Nat) (m : Memory) (a n b : Nat) (v : Word) :
    Memory.byte e (m.store a n v) b =
      if a ≤ b ∧ b < a + n then byteOfWord v (b - a) else Memory.byte e m b := by
  induction n with
  | zero => rw [if_neg (by omega)]; rfl
  | succ n ih =>
    rw [Memory.store, byte_write, ih]
    by_cases h : b = a + n
    · subst h; simp
    · rw [if_neg h]
      by_cases h2 : a ≤ b ∧ b < a + n
      · rw [if_pos h2, if_pos (by omega)]
      · rw [if_neg h2, if_neg (by omega)]

theorem mem_store {m : Memory} {a n : Nat} {v : Word} {c : Host.Cell} (h : c ∈ m.store a n v) :
    (a ≤ c.1 ∧ c.1 < a + n) ∨ c ∈ m := by
  induction n with
  | zero => exact .inr h
  | succ n ih =>
    rcases mem_write h with rfl | h
    · exact .inl ⟨by simp, by simp⟩
    · rcases ih h with h | h
      · exact .inl ⟨h.1, by omega⟩
      · exact .inr h

theorem wf_store {m : Memory} (a n : Nat) (v : Word) (h : Memory.wf m) : Memory.wf (m.store a n v) := by
  induction n with
  | zero => exact h
  | succ n ih => exact wf_write _ _ ih

/-! ### Words -/

/-- Bit i of a word is bit i mod 8 of its byte i / 8 (20_memory.md R53). -/
theorem getLsbD_wordOfBytes (b0 b1 b2 b3 : Byte) (i : Nat) :
    (wordOfBytes b0 b1 b2 b3).getLsbD i =
      if i < 8 then b0.getLsbD i else if i < 16 then b1.getLsbD (i - 8)
      else if i < 24 then b2.getLsbD (i - 16) else b3.getLsbD (i - 24) := by
  show (b3 ++ b2 ++ b1 ++ b0 : BitVec (8 + 8 + 8 + 8)).getLsbD i = _
  rw [BitVec.getLsbD_append, BitVec.getLsbD_append, BitVec.getLsbD_append]
  simp only [Nat.sub_sub]
  split_ifs <;> first | rfl | omega

theorem getLsbD_byteOfWord (w : Word) (k i : Nat) :
    (byteOfWord w k).getLsbD i = (decide (i < 8) && w.getLsbD (8 * k + i)) := by
  simp [byteOfWord, BitVec.getLsbD_extractLsb']

theorem byteOfWord_wordOfBytes (b0 b1 b2 b3 : Byte) (k : Nat) (hk : k < 4) :
    byteOfWord (wordOfBytes b0 b1 b2 b3) k =
      if k = 0 then b0 else if k = 1 then b1 else if k = 2 then b2 else b3 := by
  refine BitVec.eq_of_getLsbD_eq fun i hi => ?_
  rw [getLsbD_byteOfWord, getLsbD_wordOfBytes]
  have : k = 0 ∨ k = 1 ∨ k = 2 ∨ k = 3 := by omega
  rcases this with rfl | rfl | rfl | rfl
  · rw [if_pos (by omega)]; simp [hi]
  · rw [if_neg (by omega), if_pos (by omega), show 8 * 1 + i - 8 = i by omega]; simp [hi]
  · rw [if_neg (by omega), if_neg (by omega), if_pos (by omega), show 8 * 2 + i - 16 = i by omega]; simp [hi]
  · rw [if_neg (by omega), if_neg (by omega), if_neg (by omega), show 8 * 3 + i - 24 = i by omega]; simp [hi]

/-- A word is its four bytes. -/
theorem wordOfBytes_byteOfWord (w : Word) :
    wordOfBytes (byteOfWord w 0) (byteOfWord w 1) (byteOfWord w 2) (byteOfWord w 3) = w := by
  refine BitVec.eq_of_getLsbD_eq fun i hi => ?_
  rw [getLsbD_wordOfBytes]
  simp only [getLsbD_byteOfWord]
  split_ifs
  · simp [*]
  · rw [show 8 * 1 + (i - 8) = i by omega]; simp; omega
  · rw [show 8 * 2 + (i - 16) = i by omega]; simp; omega
  · rw [show 8 * 3 + (i - 24) = i by omega]; simp; omega

/-- A byte of the word at an offset is the byte at that offset (20_memory.md R54). -/
theorem byteOfWord_word (e : Nat) (m : Memory) (a k : Nat) (hk : k < 4) :
    byteOfWord (Memory.word e m a) k = Memory.byte e m (a + k) := by
  rw [Memory.word, byteOfWord_wordOfBytes _ _ _ _ _ hk]
  have : k = 0 ∨ k = 1 ∨ k = 2 ∨ k = 3 := by omega
  rcases this with rfl | rfl | rfl | rfl <;> simp

/-- Two words with the same bytes are equal. -/
theorem word_ext {v w : Word} (h : ∀ k < 4, byteOfWord v k = byteOfWord w k) : v = w := by
  rw [← wordOfBytes_byteOfWord v, ← wordOfBytes_byteOfWord w, h 0 (by omega), h 1 (by omega), h 2 (by omega),
    h 3 (by omega)]

/-- The bytes after W[n] <- v. -/
theorem byte_setW (e : Nat) (m : Memory) (n b : Nat) (v : Word) :
    Memory.byte e (m.setW n v) b =
      if wmemOff n ≤ b ∧ b < wmemOff n + 4 then byteOfWord v (b - wmemOff n) else Memory.byte e m b :=
  byte_store e m _ 4 b v

/-- W[n] after W[n] <- v. -/
@[simp] theorem word_setW_same (e : Nat) (m : Memory) (n : Nat) (v : Word) :
    Memory.word e (m.setW n v) (wmemOff n) = v := by
  refine word_ext fun k hk => ?_
  rw [byteOfWord_word _ _ _ _ hk, byte_setW, if_pos (by omega)]
  congr 1; omega

/-- Another word after W[n] <- v. -/
theorem word_setW_other (e : Nat) (m : Memory) {n k : Nat} (v : Word) (h : k ≠ n) :
    Memory.word e (m.setW n v) (wmemOff k) = Memory.word e m (wmemOff k) := by
  refine word_ext fun i hi => ?_
  rw [byteOfWord_word _ _ _ _ hi, byteOfWord_word _ _ _ _ hi, byte_setW, if_neg]
  unfold wmemOff; omega

theorem mem_setW {m : Memory} {n : Nat} {v : Word} {c : Host.Cell} (h : c ∈ m.setW n v) :
    (wmemOff n ≤ c.1 ∧ c.1 < wmemOff n + 4) ∨ c ∈ m := mem_store h

theorem wf_setW {m : Memory} (n : Nat) (v : Word) (h : Memory.wf m) : Memory.wf (m.setW n v) := wf_store _ 4 v h

end Sys2Proof.Machine
end

