-- ==== Sys2Proof/Laws/Pipeline.lean ====
section
/-! SUPPORT. Everything the steps and a block compression can do (42_round_pipeline.md R140, R145, R146). -/

namespace Sys2Proof.Machine

@[simp] theorem countUp_zero {α : Type} (body : Nat → α → α) (x : α) : countUp body 0 x = x := rfl

theorem countUp_succ {α : Type} (body : Nat → α → α) (n : Nat) (x : α) :
    countUp body (n + 1) x = body n (countUp body n x) := rfl

/-- A loop counting up is a fold over the range. -/
theorem countUp_eq_foldl {α : Type} (body : Nat → α → α) (n : Nat) (x : α) :
    countUp body n x = (List.range n).foldl (fun y i => body i y) x := by
  induction n with
  | zero => rfl
  | succ n ih => rw [countUp_succ, ih, List.range_succ, List.foldl_append]; rfl

/-- A property that every round of a loop keeps holds after it. -/
theorem countUp_induct {α : Type} {body : Nat → α → α} {P : α → Prop} {n : Nat} {x : α} (h0 : P x)
    (hs : ∀ i < n, ∀ y, P y → P (body i y)) : P (countUp body n x) := by
  induction n with
  | zero => exact h0
  | succ n ih => exact hs n (by omega) _ (ih fun i hi => hs i (by omega))

/-! ### The block compression as a run of steps -/

/-- The start of a block compression (R145): X[k] <- W[16*b + k], a..d <- A..D, step <- 0. -/
def loadBlock (b : Nat) (s : State) : State := { s with X := blockAt b s, work := s.chain, step := 0 }

/-- STEP(i) on the state, RSEL selecting the function. -/
def stepDispatch (i : BitVec 6) (s : State) : State := stepOp (roundFn (rselOf i)) i s

/-- STEP(0) to STEP(n - 1) on the state, in order, each once (R146). -/
def runSteps (n : Nat) (s : State) : State := countUp (fun i => stepDispatch (BitVec.ofNat 6 i)) n s

/-- The end of a block compression (R145): each chaining register accumulates. -/
def accumulate (s : State) : State := { s with chain := s.chain.add s.work }

/-- The steps change the working registers and the step counter only. -/
theorem runSteps_eq (n : Nat) (s : State) :
    runSteps n s =
      { s with work := stepsOn s.X n s.work, step := if n = 0 then s.step else BitVec.ofNat 6 n } := by
  induction n with
  | zero => rfl
  | succ n ih =>
    show stepDispatch (BitVec.ofNat 6 n) (runSteps n s) = _
    rw [ih]
    simp [stepDispatch, stepOp, stepsOn, countUp_succ, BitVec.ofNat_add]

/-- A block compression loads the block, runs the steps on the state, and accumulates, as R145 writes it. -/
theorem compressBlock_eq_steps (b : Nat) (s : State) :
    compressBlock b s = accumulate (runSteps 64 (loadBlock b s)) := by
  rw [runSteps_eq]; simp [compressBlock, accumulate, loadBlock, blockRegs]

end Sys2Proof.Machine
end

