-- ==== Sys2Proof/Laws/Packing.lean ====
section
/-! SUPPORT. Everything `pack` does to memory, byte by byte (41_padding_packing.md R112 to R116). -/

namespace Sys2Proof.Machine

/-- A byte shifted into place k of a word: byte k is it, the others are 0. -/
theorem byteOfWord_shifted (x : Byte) (k i : Nat) (hi : i < 4) :
    byteOfWord (x.setWidth 32 <<< (8 * k)) i = if i = k then x else 0 := by
  refine BitVec.eq_of_getLsbD_eq fun n hn => ?_
  rw [getLsbD_byteOfWord, BitVec.getLsbD_shiftLeft, BitVec.getLsbD_setWidth]
  by_cases h : i = k
  · subst h
    simp [hn, show 8 * i + n < 32 by omega, show ¬ 8 * i + n < 8 * i by omega, show 8 * i + n - 8 * i = n by omega]
    omega
  · rw [if_neg h]
    rcases Nat.lt_or_gt_of_ne h with h | h
    · simp [show 8 * i + n < 8 * k by omega]
    · rw [BitVec.getLsbD_of_ge x _ (by omega)]; simp

theorem byteOfWord_or (v w : Word) (k : Nat) : byteOfWord (v ||| w) k = byteOfWord v k ||| byteOfWord w k := by
  refine BitVec.eq_of_getLsbD_eq fun n hn => ?_
  simp only [getLsbD_byteOfWord, BitVec.getLsbD_or]
  cases decide (n < 8) <;> simp

@[simp] theorem byteOfWord_zero (k : Nat) : byteOfWord 0#32 k = 0#8 := by
  refine BitVec.eq_of_getLsbD_eq fun n hn => ?_
  simp [getLsbD_byteOfWord]

/-- The bytes after W[n] <- W[n] | v. -/
theorem byte_orW (e : Nat) (m : Memory) (n b : Nat) (v : Word) :
    Memory.byte e (m.orW e n v) b =
      if wmemOff n ≤ b ∧ b < wmemOff n + 4 then Memory.byte e m b ||| byteOfWord v (b - wmemOff n)
      else Memory.byte e m b := by
  rw [Memory.orW, byte_setW]
  split
  · next h =>
    rw [byteOfWord_or, byteOfWord_word _ _ _ _ (by omega), show wmemOff n + (b - wmemOff n) = b by omega]
  · rfl

/-- OR-ing a byte into byte place j of the word array. -/
theorem byte_orW_place (e : Nat) (m : Memory) (j b : Nat) (x : Byte) :
    Memory.byte e (m.orW e (j / 4) (x.setWidth 32 <<< (8 * (j % 4)))) b =
      if b = 0x04000 + j then Memory.byte e m b ||| x else Memory.byte e m b := by
  rw [byte_orW]
  unfold wmemOff
  split
  · next h =>
    rw [byteOfWord_shifted _ _ _ (by omega)]
    by_cases hb : b = 0x04000 + j
    · rw [if_pos hb, if_pos (by omega)]
    · rw [if_neg hb, if_neg (by omega)]; simp
  · next h => rw [if_neg (by omega)]

/-- The padding byte (R114). -/
theorem byte_packPadding (e len b : Nat) (m : Memory) :
    Memory.byte e (packPadding e len m) b =
      if b = 0x04000 + len then Memory.byte e m b ||| 0x80#8 else Memory.byte e m b :=
  byte_orW_place e m len b 0x80#8

/-- Zero fill (R112). -/
theorem byte_zeroFill (e words b : Nat) (m : Memory) :
    Memory.byte e (zeroFill words m) b =
      if 0x04000 ≤ b ∧ b < 0x04000 + 4 * words then 0 else Memory.byte e m b := by
  induction words with
  | zero => rw [if_neg (by omega)]; rfl
  | succ n ih =>
    show Memory.byte e ((zeroFill n m).setW n 0) b = _
    rw [byte_setW, ih]
    unfold wmemOff
    split_ifs <;> first | omega | simp

/-- Byte packing (R113) after zero fill: byte j of the message is byte j of the word array, for a message that lies above
the word array. -/
theorem byte_packBytes (e len words b : Nat) (m : Memory) (hw : 4 * words ≤ 0x0C000) (hl : len ≤ 4 * words) :
    Memory.byte e (packBytes e len (zeroFill words m)) b =
      if 0x04000 ≤ b ∧ b < 0x04000 + 4 * words then
        if b - 0x04000 < len then Memory.byte e m (msgOff (b - 0x04000)) else 0
      else Memory.byte e m b := by
  induction len generalizing b with
  | zero => simp [packBytes, byte_zeroFill]
  | succ j ih =>
    show Memory.byte e (packByte e j (packBytes e j (zeroFill words m))) b = _
    have hmsg : Memory.byte e (packBytes e j (zeroFill words m)) (msgOff j) = Memory.byte e m (msgOff j) := by
      rw [ih (msgOff j) (by omega), if_neg (by unfold msgOff; omega)]
    rw [packByte, byte_orW_place, hmsg, ih b (by omega)]
    by_cases hb : b = 0x04000 + j
    · subst hb
      have hin : 0x04000 ≤ 0x04000 + j ∧ 0x04000 + j < 0x04000 + 4 * words := by omega
      rw [if_pos rfl, if_pos hin, if_pos hin, Nat.add_sub_cancel_left, if_neg (Nat.lt_irrefl j),
        if_pos (Nat.lt_succ_self j)]
      simp
    · rw [if_neg hb]
      split_ifs <;> first | rfl | omega

/-- The length field (R115) byte by byte: byte k of 8 * L as a 64-bit number, least significant first. -/
def lengthByte (len : Word) (k : Nat) : Byte :=
  if k < 4 then byteOfWord (len <<< 3) k else byteOfWord (len >>> 29) (k - 4)

/-- The two length words. -/
theorem byte_packLength (e nb b : Nat) (len : Word) (m : Memory) (hnb : 1 ≤ nb) :
    Memory.byte e (packLength nb len m) b =
      if 0x04000 + 64 * nb - 8 ≤ b ∧ b < 0x04000 + 64 * nb then lengthByte len (b - (0x04000 + 64 * nb - 8))
      else Memory.byte e m b := by
  rw [packLength, byte_setW, byte_setW]
  unfold wmemOff lengthByte
  split_ifs <;> first | omega | rfl | (congr 1; omega)

/-- The room of the word array (R111): the message, the padding byte and the length field fit, in whole blocks. -/
theorem blockCount_room (len : Nat) : len + 9 ≤ 64 * blockCount len ∧ 64 * (blockCount len - 1) < len + 9 := by
  unfold blockCount; omega

/-- Everything `pack` does to memory: the padded message in the word array, and no other byte. -/
theorem byte_packMemory (e b : Nat) (len : Word) (m : Memory) (hw : 64 * blockCount len.toNat ≤ 0x0C000) :
    Memory.byte e (packMemory e len m) b =
      if 0x04000 ≤ b ∧ b < 0x04000 + 64 * blockCount len.toNat then
        if b - 0x04000 < len.toNat then Memory.byte e m (msgOff (b - 0x04000))
        else if b - 0x04000 = len.toNat then 0x80
        else if b - 0x04000 < 64 * blockCount len.toNat - 8 then 0
        else lengthByte len (b - 0x04000 - (64 * blockCount len.toNat - 8))
      else Memory.byte e m b := by
  have room := (blockCount_room len.toNat).1
  have hnb : 1 ≤ blockCount len.toNat := by unfold blockCount; omega
  simp only [packMemory]
  rw [byte_packLength _ _ _ _ _ hnb]
  rw [byte_packPadding, byte_packBytes e len.toNat (16 * blockCount len.toNat) b m (by omega) (by omega)]
  generalize blockCount len.toNat = nb at *
  generalize len.toNat = L at *
  split_ifs <;> first | omega | simp | exact congrArg (lengthByte len) (by omega)

/-! ### The cells `pack` lists -/

/-- `pack` keeps the canonical form. -/
theorem wf_packMemory (e : Nat) (len : Word) {m : Memory} (h : Memory.wf m) : Memory.wf (packMemory e len m) := by
  refine wf_setW _ _ (wf_setW _ _ (wf_setW _ _ ?_))
  refine countUp_induct (P := Memory.wf) ?_ fun j _ m' h' => wf_setW _ _ h'
  exact countUp_induct (P := Memory.wf) h fun j _ m' h' => wf_setW _ _ h'

/-- `pack` lists no cell outside the word array that was not listed. -/
theorem mem_packMemory {e : Nat} {len : Word} {m : Memory} {c : Host.Cell} (h : c ∈ packMemory e len m) :
    (0x04000 ≤ c.1 ∧ c.1 < 0x04000 + 64 * blockCount len.toNat) ∨ c ∈ m := by
  have room := (blockCount_room len.toNat).1
  let P (m' : Memory) : Prop :=
    ∀ c ∈ m', (0x04000 ≤ c.1 ∧ c.1 < 0x04000 + 64 * blockCount len.toNat) ∨ c ∈ m
  have setW : ∀ (m' : Memory) (n : Nat) (v : Word), n < 16 * blockCount len.toNat → P m' → P (m'.setW n v) := by
    intro m' n v hn hp c hc
    rcases mem_setW hc with hc | hc
    · unfold wmemOff at hc; exact .inl (by omega)
    · exact hp c hc
  have hz : P (zeroFill (16 * blockCount len.toNat) m) :=
    countUp_induct (P := P) (fun c hc => .inr hc) fun n hn m' hp => setW m' n 0 hn hp
  have hb : P (packBytes e len.toNat (zeroFill (16 * blockCount len.toNat) m)) :=
    countUp_induct (P := P) hz fun j hj m' hp => setW m' _ _ (by omega) hp
  exact setW _ _ _ (by omega) (setW _ _ _ (by omega) (setW _ _ _ (by omega) hb)) c h

end Sys2Proof.Machine
end

