-- ==== Sys2Proof/Laws/Commands.lean ====
section
/-! SUPPORT. Everything the error primitive and the commands can do (60_exceptions.md R221, 45_commands.md R192 to R198). -/

namespace Sys2Proof.Machine

open Sys2Proof.Safety

/-! ### Errors and flags -/

/-- The error primitive in one equation (60_exceptions.md R221): ERR is 1, and ECODE the first code. -/
theorem raiseError_eq (code : ErrCode) (s : State) :
    raiseError code s = { s with err := true, ecode := if s.err then s.ecode else code } := by
  obtain ⟨_, _, _, _, err, _, _, _, _, _, _, _, _, _, _, _, _, _, _⟩ := s
  cases err <;> rfl

@[simp] theorem busy_eq (s : State) : s.busy = decide (s.phase ≠ .idle) := by
  unfold State.busy
  cases s.phase <;> simp

/-! ### Lengths -/

/-- A message that fits has no length error, and only such a message (45_commands.md R194, R197). -/
theorem lengthError_none_iff (s : State) : lengthError s = none ↔ Fits s := by
  unfold lengthError Fits
  split_ifs <;> simp <;> omega

/-- LEN_RANGE comes before CAPACITY (60_exceptions.md R229). -/
theorem lengthError_lenRange {s : State} (h : s.params.msgBytes < s.len.toNat) : lengthError s = some .lenRange :=
  if_pos h

theorem lengthError_capacity {s : State} (h : s.len.toNat ≤ s.params.msgBytes)
    (hc : s.params.wmemBlocks < blockCount s.len.toNat) : lengthError s = some .capacity := by
  unfold lengthError
  rw [if_neg (by omega), if_pos hc]

/-- The block count of a message that fits is a legal NBLK value. -/
theorem blockCount_lt {s : State} (hp : s.params.Legal) (h : Fits s) : blockCount s.len.toNat < 2 ^ 16 := by
  have := hp.2.2.2
  have := h.2
  omega

/-! ### The meanings, case by case -/

theorem exec_pack_fits {s : State} (h : Fits s) : exec .pack s = .next (complete (packMessage s)) := by
  show execPack s = _
  rw [execPack, (lengthError_none_iff s).2 h]

theorem exec_pack_error {s : State} {code : ErrCode} (h : lengthError s = some code) :
    exec .pack s = .next (complete (raiseError code s)) := by
  show execPack s = _
  rw [execPack, h]

theorem exec_digest_fits {s : State} (h : Fits s) : exec .digest s = .next (complete (digestMessage s)) := by
  show execDigest s = _
  rw [execDigest, (lengthError_none_iff s).2 h]

theorem exec_digest_error {s : State} {code : ErrCode} (h : lengthError s = some code) :
    exec .digest s = .next (complete (raiseError code s)) := by
  show execDigest s = _
  rw [execDigest, h]

theorem exec_compress_block {s : State} (h : s.blkidx < s.nblk) :
    exec .compress s = .next (complete (compressNext s)) := if_pos h

theorem exec_compress_none {s : State} (h : ¬ s.blkidx < s.nblk) :
    exec .compress s = .next (complete (raiseError .noBlock s)) := if_neg h

/-! ### The block loop of DIGEST -/

/-- The loop changes A to D, BLKIDX and the internals of the pipeline only. -/
theorem compressAll_frame (fuel : Nat) (s : State) :
    compressAll fuel s =
      { s with
        chain := (compressAll fuel s).chain
        work := (compressAll fuel s).work
        X := (compressAll fuel s).X
        step := (compressAll fuel s).step
        blkidx := (compressAll fuel s).blkidx } := by
  induction fuel generalizing s with
  | zero => rfl
  | succ n ih =>
    rw [compressAll]
    split
    · rw [ih (compressNext s)]; rfl
    · rfl

/-- The loop with as many rounds as blocks remain is that many block compressions, and ends with BLKIDX = NBLK. -/
theorem compressAll_eq (k : Nat) (s : State) (h : s.blkidx.toNat + k = s.nblk.toNat) :
    compressAll k s = compressNext^[k] s ∧ (compressAll k s).blkidx = s.nblk := by
  induction k generalizing s with
  | zero => exact ⟨rfl, BitVec.eq_of_toNat_eq (by simpa [compressAll] using h)⟩
  | succ n ih =>
    have hlt : s.blkidx < s.nblk := by rw [BitVec.lt_def]; omega
    have hn := s.nblk.isLt
    have hb : (compressNext s).blkidx.toNat + n = (compressNext s).nblk.toNat := by
      rw [compressNext_blkidx, compressNext_nblk, BitVec.toNat_add, show (1 : BitVec 16).toNat = 1 from rfl]
      omega
    rw [compressAll, if_pos hlt, Function.iterate_succ_apply]
    exact ih (compressNext s) hb

/-- The body of DIGEST leaves the parameters and the error record, and sets DONE. -/
theorem digestMessage_frame (s : State) :
    (digestMessage s).params = s.params ∧ (digestMessage s).err = s.err ∧ (digestMessage s).ecode = s.ecode
      ∧ (digestMessage s).done = true := by
  have h (k : Nat) (u : State) : (compressAll k u).params = u.params ∧ (compressAll k u).err = u.err
      ∧ (compressAll k u).ecode = u.ecode := by
    rw [compressAll_frame]; exact ⟨rfl, rfl, rfl⟩
  obtain ⟨hp, he, hc⟩ := h (packMessage (loadIv s)).nblk.toNat (packMessage (loadIv s))
  exact ⟨hp, he, hc, rfl⟩

end Sys2Proof.Machine
end

