-- ==== Sys2Proof/Laws/Bus.lean ====
section
/-! SUPPORT. Everything a host access can do (20_memory.md R62, R63, 45_commands.md R190), said once. -/

namespace Sys2Proof.Machine

/-- The offset of the address of an offset is that offset. -/
theorem busOffset_busAddr (p : Params) {off : Nat} (h : off < 2 ^ 32) : busOffset p (busAddr p off) = off := by
  unfold busOffset busAddr
  rw [BitVec.add_comm, BitVec.add_sub_cancel, BitVec.toNat_ofNat, Nat.mod_eq_of_lt h]

/-- A register slot's read, in one of its cases: an exact value, or a fresh free value while BUSY. -/
theorem readReg_cases (off : Nat) (s : State) :
    (∃ v, readReg off s = respond v s) ∨ (s.phase ≠ .idle ∧ engineWrittenReg off ∧ readReg off s = respondAny s) := by
  unfold readReg
  rw [busy_eq]
  split_ifs with h1 h2 h3 h4
  · exact .inl ⟨_, rfl⟩
  · exact .inl ⟨_, rfl⟩
  · exact .inr ⟨by simpa using h4, h3, rfl⟩
  · exact .inl ⟨_, rfl⟩
  · exact .inl ⟨_, rfl⟩

/-- Everything a host read can do: it returns an exact value, or a free value while BUSY, or 0 with BUS_ACCESS. -/
theorem memRead_cases (off n : Nat) (s : State) :
    (legal s.params off n ∧ ∃ v, memRead off n s = respond v s)
    ∨ (legal s.params off n ∧ s.phase ≠ .idle ∧ memRead off n s = respondAny s)
    ∨ (¬ legal s.params off n ∧ memRead off n s = respond 0 (raiseError .busAccess s)) := by
  unfold memRead
  rw [busy_eq]
  split_ifs with h1 h2 h3 h4 h5
  · rcases readReg_cases off s with ⟨v, h⟩ | ⟨hb, -, h⟩
    · exact .inl ⟨h1, v, h⟩
    · exact .inr (.inl ⟨h1, hb, h⟩)
  · exact .inr (.inl ⟨h1, by simpa using h4, rfl⟩)
  · exact .inl ⟨h1, _, rfl⟩
  · exact .inl ⟨h1, _, rfl⟩
  · exact .inl ⟨h1, _, rfl⟩
  · exact .inr (.inr ⟨h1, rfl⟩)

/-- A host read changes the read log, the draws and the error record only. -/
theorem memRead_frame (off n : Nat) (s : State) :
    memRead off n s =
      { s with
        readLog := (memRead off n s).readLog
        draws := (memRead off n s).draws
        err := (memRead off n s).err
        ecode := (memRead off n s).ecode } := by
  rcases memRead_cases off n s with ⟨-, v, h⟩ | ⟨-, -, h⟩ | ⟨-, h⟩
  · rw [h]; rfl
  · rw [h]; rfl
  · rw [h, raiseError_eq]; rfl

/-- Everything a host write can do: BUS_ACCESS; a STATUS write; nothing, on a read-only or reserved register; BUSY_WRITE
while BUSY; in phase IDLE the write. -/
theorem memWrite_cases (off n : Nat) (v : Word) (s : State) :
    (¬ legal s.params off n ∧ memWrite off n v s = raiseError .busAccess s)
    ∨ (legal s.params off n ∧ off = 0x004 ∧ n = 4 ∧ memWrite off n v s = if v.getLsbD 2 then clearError s else s)
    ∨ (legal s.params off n ∧ memWrite off n v s = s)
    ∨ (legal s.params off n ∧ s.phase ≠ .idle ∧ memWrite off n v s = raiseError .busyWrite s)
    ∨ (legal s.params off n ∧ s.phase = .idle ∧ off ≠ 0x004
        ∧ (off = 0x000 ∨ off = 0x008 ∨ off = 0x00C ∨ off = 0x010 ∨ 0x04000 ≤ off)
        ∧ memWrite off n v s = writeIdle off n v s) := by
  unfold memWrite
  rw [busy_eq]
  by_cases hl : legal s.params off n
  · rw [if_pos hl]
    by_cases h4 : off = 0x004
    · rw [if_pos h4]
      exact .inr (.inl ⟨hl, h4, by unfold legal at hl; omega, rfl⟩)
    · rw [if_neg h4]
      by_cases hr : off ≤ 0x0FC ∧ off ≠ 0x000 ∧ off ≠ 0x008 ∧ off ≠ 0x00C ∧ off ≠ 0x010
      · rw [if_pos hr]
        exact .inr (.inr (.inl ⟨hl, rfl⟩))
      · rw [if_neg hr]
        by_cases hb : s.phase = .idle
        · rw [if_neg (by simp [hb])]
          exact .inr (.inr (.inr (.inr ⟨hl, hb, h4, by unfold legal at hl; omega, rfl⟩)))
        · rw [if_pos (by simp [hb])]
          exact .inr (.inr (.inr (.inl ⟨hl, hb, rfl⟩)))
  · rw [if_neg hl]
    exact .inl ⟨hl, rfl⟩

/-- While BUSY a host write changes the error record only. -/
theorem memWrite_busy_frame (off n : Nat) (v : Word) {s : State} (h : s.phase ≠ .idle) :
    memWrite off n v s =
      { s with err := (memWrite off n v s).err, ecode := (memWrite off n v s).ecode } := by
  rcases memWrite_cases off n v s with ⟨-, e⟩ | ⟨-, -, -, e⟩ | ⟨-, e⟩ | ⟨-, -, e⟩ | ⟨-, hi, -⟩
  · rw [e, raiseError_eq]
  · rw [e]; split <;> rfl
  · rw [e]
  · rw [e, raiseError_eq]
  · exact absurd hi h

/-- Everything IssueCommand does: a command is accepted, a reserved code raises ILLEGAL_CMD (45_commands.md R190). -/
theorem issueCommand_cases (v : Word) (s : State) :
    (∃ c, commandOf (decodeCmd v) = some c ∧ issueCommand v s = accept c s)
    ∨ (commandOf (decodeCmd v) = none ∧ issueCommand v s = raiseError .illegalCmd s) := by
  unfold issueCommand
  cases h : commandOf (decodeCmd v) with
  | some c => exact .inl ⟨c, rfl, rfl⟩
  | none => exact .inr ⟨rfl, rfl⟩

/-- Everything a performed write does, register by register (20_memory.md R63). -/
theorem writeIdle_cases (off n : Nat) (v : Word) (s : State) :
    (off = 0x000 ∧ writeIdle off n v s = issueCommand v s)
    ∨ (off = 0x008 ∧ writeIdle off n v s = { s with len := v })
    ∨ (off = 0x00C ∧ writeIdle off n v s = { s with nblk := warlIndex s.params v })
    ∨ (off = 0x010 ∧ writeIdle off n v s = { s with blkidx := warlIndex s.params v })
    ∨ (off ≠ 0x000 ∧ off ≠ 0x008 ∧ off ≠ 0x00C ∧ off ≠ 0x010
        ∧ writeIdle off n v s = { s with mem := Memory.store s.mem off n v }) := by
  unfold writeIdle
  split_ifs with h1 h2 h3 h4
  · exact .inl ⟨h1, rfl⟩
  · exact .inr (.inl ⟨h2, rfl⟩)
  · exact .inr (.inr (.inl ⟨h3, rfl⟩))
  · exact .inr (.inr (.inr (.inl ⟨h4, rfl⟩)))
  · exact .inr (.inr (.inr (.inr ⟨h1, h2, h3, h4, rfl⟩)))

end Sys2Proof.Machine
end

