-- ==== Sys2Proof/Laws/Step.lean ====
section
/-! SUPPORT. Everything a step can do: one equation for each event, and the inversion that later proofs cite. -/

namespace Sys2Proof.Machine

theorem step_of_empty {s : State} (h : s.sched = []) : step s = engineTurn s := by
  unfold step; rw [h]

theorem step_of_event {s : State} {e : Event} {rest : List Event} (h : s.sched = e :: rest) :
    step s = perform e { s with sched := rest } := by
  unfold step; rw [h]

/-- The step operation a STEP word is (30_encoding.md R87). -/
theorem exec_decodeStep (i : BitVec 6) (s : State) :
    exec (decodeStep i) s = .next (stepDispatch i s) := by
  have h : ∀ i : BitVec 6,
      (decodeStep i = .ff (jOf i) ∧ rselOf i = 0#2 ∧ 0#2 ++ jOf i = i)
      ∨ (decodeStep i = .gg (jOf i) ∧ rselOf i = 1#2 ∧ 1#2 ++ jOf i = i)
      ∨ (decodeStep i = .hh (jOf i) ∧ rselOf i = 2#2 ∧ 2#2 ++ jOf i = i)
      ∨ (decodeStep i = .ii (jOf i) ∧ rselOf i = 3#2 ∧ 3#2 ++ jOf i = i) := by decide
  rcases h i with ⟨h1, h2, h3⟩ | ⟨h1, h2, h3⟩ | ⟨h1, h2, h3⟩ | ⟨h1, h2, h3⟩ <;>
    (rw [h1, stepDispatch, h2]; conv => rhs; rw [← h3]) <;> rfl

/-- The round function an FSEL word is (30_encoding.md R82). -/
theorem exec_decodeFsel (sel : BitVec 2) (s : State) :
    exec (decodeFsel sel) s = .next (roundOp (roundFn sel) s) := by
  have h : ∀ sel : BitVec 2, sel = 0b00#2 ∨ sel = 0b01#2 ∨ sel = 0b10#2 ∨ sel = 0b11#2 := by decide
  rcases h sel with rfl | rfl | rfl | rfl <;> rfl

/-- Everything the completion of a command does (45_commands.md R191 to R197): the body, or an error and no body; then the
phase is IDLE. -/
theorem exec_instrOf (c : Command) (s : State) :
    ∃ t, exec (instrOf c) s = .next (complete t) ∧
      ((c = .nop ∧ t = s) ∨ (c = .init ∧ t = loadIv s)
      ∨ (c = .pack ∧ Safety.Fits s ∧ t = packMessage s)
      ∨ (c = .compress ∧ s.blkidx < s.nblk ∧ t = compressNext s)
      ∨ (c = .fold ∧ t = foldDigest s)
      ∨ (c = .digest ∧ Safety.Fits s ∧ t = digestMessage s)
      ∨ ((c = .pack ∨ c = .digest) ∧ ¬ Safety.Fits s ∧ ∃ code, lengthError s = some code ∧ t = raiseError code s)
      ∨ (c = .compress ∧ ¬ s.blkidx < s.nblk ∧ t = raiseError .noBlock s)) := by
  cases c with
  | nop => exact ⟨_, rfl, .inl ⟨rfl, rfl⟩⟩
  | init => exact ⟨_, rfl, by simp⟩
  | pack =>
    by_cases h : Safety.Fits s
    · exact ⟨_, exec_pack_fits h, .inr (.inr (.inl ⟨rfl, h, rfl⟩))⟩
    · cases hl : lengthError s with
      | none => exact absurd ((lengthError_none_iff s).1 hl) h
      | some code => exact ⟨_, exec_pack_error hl, .inr (.inr (.inr (.inr (.inr (.inr (.inl ⟨.inl rfl, h, code, rfl, rfl⟩))))))⟩
  | compress =>
    by_cases h : s.blkidx < s.nblk
    · exact ⟨_, exec_compress_block h, by simp [h]⟩
    · exact ⟨_, exec_compress_none h, by simp [h]⟩
  | fold => exact ⟨_, rfl, by simp⟩
  | digest =>
    by_cases h : Safety.Fits s
    · exact ⟨_, exec_digest_fits h, .inr (.inr (.inr (.inr (.inr (.inl ⟨rfl, h, rfl⟩)))))⟩
    · cases hl : lengthError s with
      | none => exact absurd ((lengthError_none_iff s).1 hl) h
      | some code => exact ⟨_, exec_digest_error hl, .inr (.inr (.inr (.inr (.inr (.inr (.inl ⟨.inr rfl, h, code, rfl, rfl⟩))))))⟩

/-- The completion of a command leaves the phase IDLE and the parameters as they were. -/
theorem exec_instrOf_frame {c : Command} {s t : State} (h : exec (instrOf c) s = .next t) :
    t.phase = .idle ∧ t.params = s.params := by
  obtain ⟨u, hu, hc⟩ := exec_instrOf c s
  rw [h] at hu
  cases hu
  refine ⟨rfl, ?_⟩
  show u.params = s.params
  rcases hc with ⟨-, rfl⟩ | ⟨-, rfl⟩ | ⟨-, -, rfl⟩ | ⟨-, -, rfl⟩ | ⟨-, rfl⟩ | ⟨-, -, rfl⟩ | ⟨-, -, _, -, rfl⟩ | ⟨-, -, rfl⟩
  · rfl
  · rfl
  · rfl
  · rfl
  · rfl
  · exact (digestMessage_frame s).1
  · rw [raiseError_eq]
  · rw [raiseError_eq]

/-- The engine's turn: nothing in phase IDLE, else the completion of the command. -/
theorem engineTurn_cases {s t : State} (h : engineTurn s = .next t) :
    (s.phase = .idle ∧ t = s) ∨ ∃ c, s.phase = .exec c ∧ exec (instrOf c) s = .next t := by
  unfold engineTurn at h
  cases hp : s.phase with
  | idle => rw [hp] at h; cases h; exact .inl ⟨rfl, rfl⟩
  | exec c => rw [hp] at h; exact .inr ⟨c, rfl, h⟩

/-- The inversion of a step: the engine's turn (with nothing scheduled, or scheduled next), a host read, a host write, a
reset, a step operation or a round function; `u` is the state without the event. -/
theorem step_cases {s t : State} (h : step s = .next t) :
    ∃ u, (u = s ∧ s.sched = [] ∨ ∃ e rest, s.sched = e :: rest ∧ u = { s with sched := rest }) ∧
      (((s.sched = [] ∨ ∃ rest, s.sched = .engine :: rest) ∧ engineTurn u = .next t)
      ∨ (∃ addr n rest, s.sched = .read addr n :: rest ∧ t = memRead (busOffset s.params addr) n u)
      ∨ (∃ addr n v rest, s.sched = .write addr n v :: rest ∧ t = memWrite (busOffset s.params addr) n v u)
      ∨ (∃ rest, s.sched = .reset :: rest ∧ t = resetEngine u)
      ∨ (∃ i rest, s.sched = .stepWord i :: rest ∧ t = stepDispatch i u)
      ∨ (∃ sel rest, s.sched = .fselWord sel :: rest ∧ t = roundOp (roundFn sel) u)) := by
  cases hs : s.sched with
  | nil =>
    rw [step_of_empty hs] at h
    exact ⟨s, .inl ⟨rfl, rfl⟩, .inl ⟨.inl rfl, h⟩⟩
  | cons e rest =>
    rw [step_of_event hs] at h
    refine ⟨{ s with sched := rest }, .inr ⟨e, rest, rfl, rfl⟩, ?_⟩
    cases e with
    | read addr n => cases h; exact .inr (.inl ⟨addr, n, rest, rfl, rfl⟩)
    | write addr n v => cases h; exact .inr (.inr (.inl ⟨addr, n, v, rest, rfl, rfl⟩))
    | engine => exact .inl ⟨.inr ⟨rest, rfl⟩, h⟩
    | reset => cases h; exact .inr (.inr (.inr (.inl ⟨rest, rfl, rfl⟩)))
    | stepWord i =>
      have h : exec (decodeStep i) { s with sched := rest } = .next t := h
      rw [exec_decodeStep] at h
      cases h
      exact .inr (.inr (.inr (.inr (.inl ⟨i, rest, rfl, rfl⟩))))
    | fselWord sel =>
      have h : exec (decodeFsel sel) { s with sched := rest } = .next t := h
      rw [exec_decodeFsel] at h
      cases h
      exact .inr (.inr (.inr (.inr (.inr ⟨sel, rest, rfl, rfl⟩))))

end Sys2Proof.Machine
end

