-- ==== Sys2Proof/Machine/HostProgram.lean ====
section
/-! DEFINITION. Host programs that act on what they read (30_encoding.md R92, 40_host_byte_prep.md R104): POLL, READHEX,
MD5 and the operation md5(text), as runs of the machine with the host's accesses put next. Nothing the engine does uses this
file (assumption log 16). -/

namespace Sys2Proof.Machine

/-! ### Accesses one after another -/

/-- Go on with a next state; a fault or a refusal ends the run. -/
def andThen (o : Host.Outcome State Fault Refusal) (k : State → Host.Outcome State Fault Refusal) :
    Host.Outcome State Fault Refusal :=
  match o with
  | .next t => k t
  | .fault r => .fault r
  | .refused r => .refused r

/-- The machine's step with an event put next: a host access, or the engine's turn. -/
def stepWith (e : Event) (s : State) : Host.Outcome State Fault Refusal := step { s with sched := e :: s.sched }

/-- Events one after another, in program order (20_memory.md R65). -/
def stepWithAll : List Event → State → Host.Outcome State Fault Refusal
  | [], s => .next s
  | e :: rest, s => andThen (stepWith e s) (stepWithAll rest)

/-- The value of the last host read: `name` in `RD32 off -> name` (30_encoding.md R91). -/
def lastRead (s : State) : Word := s.readLog.headD 0

/-! ### Polling and the digest's characters -/

/-- `POLL` (30_encoding.md R92): STATUS is read until bit 0 of the value read is 0. `latency` is how many reads at most come
before the completion of a running command; the engine then has its turn (45_commands.md R191), and the read after it
returns BUSY = 0 (`poll_idle`). -/
def poll : Nat → State → Host.Outcome State Fault Refusal
  | 0, s => andThen (stepWith .engine s) (stepWith (rd32 s.params 0x004))
  | latency + 1, s =>
    andThen (stepWith (rd32 s.params 0x004) s) fun t => if (lastRead t).getLsbD 0 then poll latency t else .next t

/-- The `h` of `READHEX -> h` (30_encoding.md R92): the 32 bytes of h0 to h7, the last eight values read, in little-endian
order (10_state.md R33). -/
def hexRead (s : State) : List Byte := (s.readLog.take 8).reverse.flatMap fun w => (List.range 4).map (byteOfWord w)

/-! ### The operation md5(text) -/

/-- DIGEST, POLL, READHEX after the accesses that load a message (30_encoding.md R92). -/
def digestProgram (latency : Nat) (load : List Event) (s : State) : Host.Outcome State Fault Refusal :=
  andThen (stepWithAll (load ++ issue s.params .digest) s) fun t =>
    andThen (poll latency t) fun u => stepWithAll (readHex u.params) u

/-- `MD5 "text" -> h` (30_encoding.md R92), as the row expands it for every text: LOADMSG of the text's bytes, DIGEST, POLL,
READHEX; `h` is `hexRead` of the state it ends in. A byte past MSG is written all the same, and records BUS_ACCESS. None
where LEN cannot hold the length: LOADMSG is refused. -/
def md5Program (latency : Nat) (text : List (BitVec 16)) (s : State) : Option (Host.Outcome State Fault Refusal) :=
  (loadMsg s.params (hostBytes text)).map fun load => digestProgram latency load s

/-- The accesses that load a text's bytes in the operation md5(text) (40_host_byte_prep.md R104), which first requires that
MSG holds them: LOADMSG of them where it does. Else only LEN is written, so that DIGEST raises LEN_RANGE and that error is
recorded. DESIGN CHOICE (assumption log 21): R104 gives the outcome and not the accesses of that case. -/
def md5Load (p : Params) (bytes : List Byte) : Option (List Event) :=
  if bytes.length ≤ p.msgBytes then loadMsg p bytes else (lenWrite p bytes.length).map fun e => [e]

/-- The operation md5(text) (40_host_byte_prep.md R104): the bytes, loaded under R104's requirement; DIGEST; poll; read HEX.
For a text that MSG holds it is `MD5 "text"` (`md5Run_eq_md5Program`). None where LEN cannot hold the length: the host
refuses the text. -/
def md5Run (latency : Nat) (text : List (BitVec 16)) (s : State) : Option (Host.Outcome State Fault Refusal) :=
  (md5Load s.params (hostBytes text)).map fun load => digestProgram latency load s

/-- The result string of the operation (40_host_byte_prep.md R104), as its 32 character codes: what READHEX read, if the
STATUS that POLL read last, just before it, has ERR = 0 and DONE = 1; else there is no digest. -/
def md5Result (s : State) : Option (List Byte) :=
  let status := s.readLog.getD 8 0
  if status.getLsbD 2 = false ∧ status.getLsbD 1 = true then some (hexRead s) else none

/-- `md5(text)` (40_host_byte_prep.md R104): the digest's 32 characters, or none. -/
def md5Digest (latency : Nat) (text : List (BitVec 16)) (s : State) : Option (List Byte) :=
  match md5Run latency text s with
  | some (.next t) => md5Result t
  | some (.fault _) => none
  | some (.refused _) => none
  | none => none

end Sys2Proof.Machine
end

