-- ==== Sys2Proof/Laws/HostProgram.lean ====
section
/-! SUPPORT. What a host program that polls and reads the digest does: one lemma for each piece, and the whole operation
md5(text) (30_encoding.md R92, 40_host_byte_prep.md R104). -/

namespace Sys2Proof.Machine

open Sys2Proof.Safety

@[simp] theorem andThen_next (s : State) (k : State → Host.Outcome State Fault Refusal) : andThen (.next s) k = k s := rfl

/-- An event put next is performed on the state itself. -/
theorem stepWith_eq (e : Event) (s : State) : stepWith e s = perform e s := rfl

theorem stepWithAll_append (xs ys : List Event) (s : State) :
    stepWithAll (xs ++ ys) s = andThen (stepWithAll xs s) (stepWithAll ys) := by
  induction xs generalizing s with
  | nil => rfl
  | cons e rest ih =>
    show andThen (stepWith e s) (stepWithAll (rest ++ ys)) = andThen (andThen (stepWith e s) (stepWithAll rest)) _
    cases stepWith e s with
    | next t => exact ih t
    | fault r => rfl
    | refused r => rfl

/-! ### The accesses -/

/-- A read of STATUS returns it, at any phase. -/
theorem stepWith_rd_status (s : State) : stepWith (rd32 s.params 0x004) s = .next (respond s.status s) := by
  rw [stepWith_eq, rd32, perform, busOffset_busAddr _ (by decide), memRead, if_pos (.inl (by decide)), if_pos (by decide)]
  rfl

/-- Bit 0 of STATUS is BUSY. -/
theorem status_bit0 (s : State) : s.status.getLsbD 0 = s.busy := by
  unfold State.status
  generalize s.busy = busy, s.done = done, s.err = err, s.ecode = ecode
  revert busy done err
  cases ecode <;> decide

/-- Bit 1 of STATUS is DONE, and bit 2 is ERR. -/
theorem status_bits12 (s : State) : s.status.getLsbD 1 = s.done ∧ s.status.getLsbD 2 = s.err := by
  unfold State.status
  generalize s.busy = busy, s.done = done, s.err = err, s.ecode = ecode
  revert busy done err
  cases ecode <;> decide

/-- A legal write in phase IDLE is performed. -/
theorem stepWith_write_idle {s : State} {off n : Nat} {v : Word} (hi : s.phase = .idle) (ho : off < 2 ^ 32)
    (hl : legal s.params off n) (hw : off = 0x000 ∨ off = 0x008 ∨ 0x04000 ≤ off) :
    stepWith (.write (busAddr s.params off) n v) s = .next (writeIdle off n v s) := by
  rw [stepWith_eq, perform, busOffset_busAddr _ ho, memWrite, if_pos hl, if_neg (by omega), if_neg (by omega),
    if_neg (by simp [hi])]

/-- A write of LEN in phase IDLE. -/
theorem stepWith_wr_len {s : State} (v : Word) (hi : s.phase = .idle) :
    stepWith (wr32 s.params 0x008 v) s = .next { s with len := v } :=
  stepWith_write_idle hi (by decide) (.inl (by decide)) (by decide)

/-- The issue of a command in phase IDLE. -/
theorem stepWithAll_issue {s : State} (c : Command) (hi : s.phase = .idle) :
    stepWithAll (issue s.params c) s = .next (accept c s) := by
  show andThen (stepWith (wr32 s.params 0x000 (opCode c)) s) (stepWithAll []) = _
  rw [wr32, stepWith_write_idle hi (by decide) (.inl (by decide)) (by decide)]
  cases c <;> rfl

/-- One byte write to MSG in phase IDLE, for any index below 2^32: stored below MSG_BYTES, else BUS_ACCESS. -/
theorem stepWith_wr8_msg {s : State} {j : Nat} (b : Byte) (hi : s.phase = .idle) (hp : s.params.Legal) (hj : j < 2 ^ 32) :
    stepWith (wr8 s.params (0x10000 + j) b) s =
      .next (if j < s.params.msgBytes then { s with mem := s.mem.store (0x10000 + j) 1 (b.setWidth 32) }
        else raiseError .busAccess s) := by
  have h64 := hp.2.1
  split
  · next h =>
    rw [wr8, stepWith_write_idle hi (by omega) (.inr (.inr ⟨by omega, by omega, .inl rfl⟩)) (by omega), writeIdle,
      if_neg (by omega), if_neg (by omega), if_neg (by omega), if_neg (by omega)]
  · next h =>
    have off : busOffset s.params (busAddr s.params (0x10000 + j)) = (0x10000 + j) % 2 ^ 32 := by
      unfold busOffset busAddr
      rw [BitVec.add_comm, BitVec.add_sub_cancel, BitVec.toNat_ofNat]
    rw [stepWith_eq, wr8, perform, off, memWrite, if_neg]
    unfold legal
    omega

/-- The byte writes of LOADMSG in phase IDLE, for bytes that MSG holds: they are in MSG, and nothing else changes. -/
theorem stepWithAll_msgWrites {bytes : List Byte} {s : State} {j : Nat} (hi : s.phase = .idle) (hp : s.params.Legal)
    (hl : j + bytes.length ≤ s.params.msgBytes) :
    ∃ m, stepWithAll (msgWrites s.params j bytes) s = .next { s with mem := m }
      ∧ ∀ a, Memory.byte s.epoch m a =
          if 0x10000 + j ≤ a ∧ a < 0x10000 + j + bytes.length then bytes.getD (a - (0x10000 + j)) 0 else s.byteAt a := by
  induction bytes generalizing s j with
  | nil => exact ⟨s.mem, rfl, fun a => by rw [if_neg (by simp only [List.length_nil]; omega)]; rfl⟩
  | cons b bytes ih =>
    rw [List.length_cons] at hl
    have h64 := hp.2.1
    have hw := stepWith_wr8_msg b hi hp (j := j) (by omega)
    rw [if_pos (show j < s.params.msgBytes by omega)] at hw
    obtain ⟨m, hm, hb⟩ := ih (s := { s with mem := s.mem.store (0x10000 + j) 1 (b.setWidth 32) }) (j := j + 1) hi hp
      (by show j + 1 + bytes.length ≤ s.params.msgBytes; omega)
    refine ⟨m, ?_, fun a => ?_⟩
    · show andThen (stepWith (wr8 s.params (0x10000 + j) b) s) (stepWithAll (msgWrites s.params (j + 1) bytes)) = _
      rw [hw]
      exact hm
    · have hb := hb a
      rw [show ({ s with mem := s.mem.store (0x10000 + j) 1 (b.setWidth 32) } : State).byteAt a =
        Memory.byte s.epoch (s.mem.store (0x10000 + j) 1 (b.setWidth 32)) a from rfl, byte_store] at hb
      rw [List.length_cons]
      by_cases h0 : a = 0x10000 + j
      · subst h0
        rw [if_neg (by omega), if_pos (by omega), Nat.sub_self] at hb
        rw [if_pos (by omega), Nat.sub_self, List.getD_cons_zero]
        refine hb.trans (BitVec.eq_of_toNat_eq ?_)
        simp [byteOfWord]
        omega
      · rw [if_neg (c := 0x10000 + j ≤ a ∧ a < 0x10000 + j + 1) (by omega)] at hb
        refine hb.trans ?_
        by_cases h1 : 0x10000 + (j + 1) ≤ a ∧ a < 0x10000 + (j + 1) + bytes.length
        · rw [if_pos h1, if_pos (by omega), show a - (0x10000 + j) = a - (0x10000 + (j + 1)) + 1 by omega,
            List.getD_cons_succ]
        · rw [if_neg h1, if_neg (by omega)]; rfl

/-! ### POLL -/

/-- POLL in phase EXEC: some reads of STATUS, the completion, and one read that ends the loop. -/
theorem poll_busy {s : State} {c : Command} (latency : Nat) (h : s.phase = .exec c) :
    ∃ log t, exec (instrOf c) { s with readLog := log } = .next t ∧ t.phase = .idle
      ∧ poll latency s = .next (respond t.status t) := by
  induction latency generalizing s with
  | zero =>
    obtain ⟨u, hu, -⟩ := exec_instrOf c s
    obtain ⟨hi, hp⟩ := exec_instrOf_frame hu
    refine ⟨s.readLog, complete u, hu, hi, ?_⟩
    have he : stepWith .engine s = .next (complete u) := by
      rw [stepWith_eq, perform, engineTurn, h]; exact hu
    rw [poll, he, andThen_next, ← hp]
    exact stepWith_rd_status _
  | succ n ih =>
    rw [poll, stepWith_rd_status, andThen_next]
    have hb : (lastRead (respond s.status s)).getLsbD 0 = true := by
      show s.status.getLsbD 0 = true
      rw [status_bit0, busy_eq, h]; rfl
    rw [if_pos hb]
    exact ih (s := respond s.status s) h

/-- POLL ends in phase IDLE, from any state, and the last value read is STATUS with BUSY = 0. -/
theorem poll_idle (latency : Nat) (s : State) :
    ∃ t, poll latency s = .next t ∧ t.phase = .idle ∧ lastRead t = t.status ∧ (lastRead t).getLsbD 0 = false := by
  have fin : ∀ t : State, t.phase = .idle → t.status.getLsbD 0 = false := by
    intro t ht; rw [status_bit0, busy_eq, ht]; rfl
  cases hp : s.phase with
  | exec c =>
    obtain ⟨log, t, -, hi, h⟩ := poll_busy latency hp
    exact ⟨_, h, hi, rfl, fin t hi⟩
  | idle =>
    refine ⟨respond s.status s, ?_, hp, rfl, fin s hp⟩
    cases latency with
    | zero =>
      have he : stepWith .engine s = .next s := by rw [stepWith_eq, perform, engineTurn, hp]
      rw [poll, he, andThen_next]
      exact stepWith_rd_status s
    | succ n =>
      rw [poll, stepWith_rd_status, andThen_next, if_neg]
      show ¬ s.status.getLsbD 0 = true
      rw [fin s hp]; decide

/-! ### READHEX -/

/-- READHEX in phase IDLE reads the eight HEX words, in order, and changes only the read log. -/
theorem stepWithAll_readHex {s : State} (hi : s.phase = .idle) :
    stepWithAll (readHex s.params) s =
      .next { s with readLog := ((List.range 8).map s.hexWord).reverse ++ s.readLog } := by
  have one : ∀ k : Fin 8, ∀ log, stepWith (rd32 s.params (0x040 + 4 * k.val)) { s with readLog := log } =
      .next { s with readLog := s.hexWord k.val :: log } := by
    intro k log
    have hk := k.isLt
    rw [stepWith_eq, rd32, perform]
    show Host.Outcome.next (memRead (busOffset s.params (busAddr s.params (0x040 + 4 * k.val))) 4 { s with readLog := log }) = _
    rw [busOffset_busAddr _ (by omega), memRead, if_pos (by unfold legal; omega), if_pos (by omega), readReg,
      if_neg (by omega), if_neg (by omega), if_pos (by unfold engineWrittenReg; omega),
      if_neg (by rw [busy_eq, hi]; decide), regView, if_neg (by omega), if_neg (by omega), if_neg (by omega),
      show (0x040 + 4 * k.val - 0x040) / 4 = k.val by omega]
    rfl
  have h0 := one 0 s.readLog
  simp only [readHex, List.range, List.range.loop, List.map, stepWithAll]
  rw [show stepWith (rd32 s.params (0x040 + 4 * 0)) s = _ from h0, andThen_next]
  rw [show stepWith (rd32 s.params (0x040 + 4 * 1)) _ = _ from one 1 _, andThen_next]
  rw [show stepWith (rd32 s.params (0x040 + 4 * 2)) _ = _ from one 2 _, andThen_next]
  rw [show stepWith (rd32 s.params (0x040 + 4 * 3)) _ = _ from one 3 _, andThen_next]
  rw [show stepWith (rd32 s.params (0x040 + 4 * 4)) _ = _ from one 4 _, andThen_next]
  rw [show stepWith (rd32 s.params (0x040 + 4 * 5)) _ = _ from one 5 _, andThen_next]
  rw [show stepWith (rd32 s.params (0x040 + 4 * 6)) _ = _ from one 6 _, andThen_next]
  rw [show stepWith (rd32 s.params (0x040 + 4 * 7)) _ = _ from one 7 _, andThen_next]
  rfl

/-- The 32 bytes of eight HEX words just read are the characters of HEX (10_state.md R33). -/
theorem hexRead_of_hexWords (s : State) (log : List Word) (h : s.readLog = ((List.range 8).map s.hexWord).reverse ++ log) :
    hexRead s = s.hex.toList := by
  have words : hexRead s = (List.range 8).flatMap fun k => (List.range 4).map (byteOfWord (s.hexWord k)) := by
    unfold hexRead
    rw [h, List.take_left' (by simp), List.reverse_reverse, List.flatMap_map]
  rw [words]
  have four : ∀ k, (List.range 4).map (byteOfWord (s.hexWord k)) =
      [s.hex.toList.getD (4 * k) 0, s.hex.toList.getD (4 * k + 1) 0, s.hex.toList.getD (4 * k + 2) 0,
        s.hex.toList.getD (4 * k + 3) 0] := by
    intro k
    simp [List.range, List.range.loop, State.hexWord, byteOfWord_wordOfBytes]
  simp only [four]
  have len : s.hex.toList.length = 32 := by simp
  generalize s.hex.toList = l at len
  refine List.ext_getElem (by simp [List.range, List.range.loop, len]) fun n h1 h2 => ?_
  have hn : n < 32 := by omega
  simp only [List.range, List.range.loop, List.flatMap_cons, List.flatMap_nil, List.cons_append, List.nil_append,
    List.getD_eq_getElem?_getD]
  interval_cases n <;> simp [len]

/-! ### The operation md5(text) -/

/-- The end of the operation, from the state DIGEST was accepted in: the poll and the eight reads go on, and the result is
HEX where the completed command left ERR = 0 and DONE = 1, else none. -/
theorem md5_end {s : State} (latency : Nat) (h : s.phase = .exec .digest) :
    ∃ log t v, exec .digest { s with readLog := log } = .next t
      ∧ (andThen (poll latency s) fun u => stepWithAll (readHex u.params) u) = .next v
      ∧ v.ecode = t.ecode
      ∧ md5Result v = if t.err = false ∧ t.done = true then some t.hex.toList else none := by
  obtain ⟨log, t, ht, hi, hpoll⟩ := poll_busy latency h
  let v : State := { respond t.status t with
    readLog := ((List.range 8).map t.hexWord).reverse ++ t.status :: t.readLog }
  have status : v.readLog.getD 8 0 = t.status := by simp [v, List.range, List.range.loop]
  refine ⟨log, t, v, ht, by rw [hpoll, andThen_next]; exact stepWithAll_readHex (s := respond t.status t) hi, rfl, ?_⟩
  unfold md5Result
  simp only [status, (status_bits12 t).1, (status_bits12 t).2]
  split
  · exact congrArg some (hexRead_of_hexWords v _ rfl)
  · rfl

/-- md5(text) for a text whose bytes fit, from any state in phase IDLE with ERR = 0: the result is the 32 characters that
DIGEST leaves in HEX when MSG[0..LEN-1] are the text's bytes (40_host_byte_prep.md R104). -/
theorem md5Digest_of_fits {s : State} {text : List (BitVec 16)} (latency : Nat) (hi : s.phase = .idle)
    (hp : s.params.Legal) (he : s.err = false) (hl : (hostBytes text).length ≤ s.params.msgBytes)
    (hn : blockCount (hostBytes text).length ≤ s.params.wmemBlocks) :
    ∃ u t, messageOf u = hostBytes text ∧ u.params = s.params ∧ Fits u ∧ exec .digest u = .next t
      ∧ md5Digest latency text s = some t.hex.toList := by
  generalize hb : hostBytes text = bytes at hl hn ⊢
  have h64 := hp.2.1
  have hlen : bytes.length < 2 ^ 32 := by omega
  obtain ⟨m, hm, hbyte⟩ := stepWithAll_msgWrites (bytes := bytes) (j := 0) hi hp (by omega)
  let r : State := { s with mem := m, len := BitVec.ofNat 32 bytes.length }
  have hload : stepWithAll (msgWrites s.params 0 bytes ++ [wr32 s.params 0x008 (BitVec.ofNat 32 bytes.length)]
      ++ issue s.params .digest) s = .next (accept .digest r) := by
    rw [stepWithAll_append, stepWithAll_append, hm, andThen_next]
    have h1 : stepWithAll [wr32 s.params 0x008 (BitVec.ofNat 32 bytes.length)] { s with mem := m } = .next r := by
      show andThen (stepWith _ _) (stepWithAll []) = _
      rw [show stepWith (wr32 s.params 0x008 (BitVec.ofNat 32 bytes.length)) { s with mem := m } = .next r from
        stepWith_wr_len (s := { s with mem := m }) _ hi]
      rfl
    rw [h1, andThen_next]
    exact stepWithAll_issue (s := r) .digest hi
  obtain ⟨log, t, v, ht, hv, -, hr⟩ := md5_end (s := accept .digest r) latency rfl
  have hL : r.len.toNat = bytes.length := by
    show (BitVec.ofNat 32 bytes.length).toNat = _
    rw [BitVec.toNat_ofNat, Nat.mod_eq_of_lt hlen]
  have hfit : Fits { accept .digest r with readLog := log } := by
    refine ⟨?_, ?_⟩ <;> show _ ≤ _ <;> (try rw [show ({ accept .digest r with readLog := log } : State).len.toNat = _ from hL])
    · exact hl
    · exact hn
  refine ⟨{ accept .digest r with readLog := log }, t, ?_, rfl, hfit, ht, ?_⟩
  · unfold messageOf
    rw [show ({ accept .digest r with readLog := log } : State).len.toNat = bytes.length from hL]
    refine List.ext_getElem (by simp) fun n h1 h2 => ?_
    rw [List.getElem_map, List.getElem_range]
    refine (hbyte (msgOff n)).trans ?_
    unfold msgOff
    rw [if_pos (by omega), show 0x10000 + n - (0x10000 + 0) = n by omega, List.getD_eq_getElem?_getD,
      List.getElem?_eq_getElem h2]
    rfl
  · have hx := exec_digest_fits hfit
    rw [show exec .digest _ = _ from ht] at hx
    cases hx
    obtain ⟨-, e, -, d⟩ := digestMessage_frame { accept .digest r with readLog := log }
    rw [if_pos ⟨e.trans he, d⟩] at hr
    unfold md5Digest md5Run md5Load digestProgram
    rw [hb, if_pos hl, loadMsg, lenWrite, if_pos hlen]
    simp only [Option.map_some]
    rw [hload, andThen_next, hv]
    exact hr

/-- md5(text) for a text whose bytes MSG cannot hold, from any state in phase IDLE with ERR = 0: DIGEST records LEN_RANGE and
there is no digest (40_host_byte_prep.md R104). -/
theorem md5Run_of_too_long {s : State} {text : List (BitVec 16)} (latency : Nat) (hi : s.phase = .idle)
    (he : s.err = false) (hl : s.params.msgBytes < (hostBytes text).length) (hlen : (hostBytes text).length < 2 ^ 32) :
    ∃ v, md5Run latency text s = some (.next v) ∧ v.ecode = .lenRange ∧ md5Digest latency text s = none := by
  generalize hb : hostBytes text = bytes at hl hlen
  let r : State := { s with len := BitVec.ofNat 32 bytes.length }
  have hload : stepWithAll ([wr32 s.params 0x008 (BitVec.ofNat 32 bytes.length)] ++ issue s.params .digest) s =
      .next (accept .digest r) := by
    show andThen (stepWith _ _) (stepWithAll (issue s.params .digest)) = _
    rw [stepWith_wr_len _ hi, andThen_next]
    exact stepWithAll_issue (s := r) .digest hi
  obtain ⟨log, t, v, ht, hv, hc, hr⟩ := md5_end (s := accept .digest r) latency rfl
  have hrange : lengthError { accept .digest r with readLog := log } = some .lenRange := by
    refine lengthError_lenRange ?_
    show s.params.msgBytes < (BitVec.ofNat 32 bytes.length).toNat
    rw [BitVec.toNat_ofNat, Nat.mod_eq_of_lt hlen]
    exact hl
  have hx := exec_digest_error hrange
  rw [show exec .digest _ = _ from ht] at hx
  cases hx
  rw [raiseError_eq] at hc hr
  have run : md5Run latency text s = some (.next v) := by
    unfold md5Run md5Load digestProgram
    rw [hb, if_neg (by omega), lenWrite, if_pos hlen]
    simp only [Option.map_some]
    rw [hload, andThen_next, hv]
  refine ⟨v, run, hc.trans ?_, ?_⟩
  · show (if s.err then s.ecode else .lenRange) = ErrCode.lenRange
    rw [he]; rfl
  · unfold md5Digest
    rw [run]
    exact hr

/-! ### MD5 as a pseudo-instruction -/

/-- Where MSG holds the text's bytes, md5(text) performs exactly the accesses of `MD5 "text"`. -/
theorem md5Run_eq_md5Program {s : State} {text : List (BitVec 16)} (latency : Nat)
    (hl : (hostBytes text).length ≤ s.params.msgBytes) : md5Run latency text s = md5Program latency text s := by
  unfold md5Run md5Program md5Load
  rw [if_pos hl]

/-- The byte writes of LOADMSG keep the phase, the parameters and a BUS_ACCESS already recorded; with ERR = 0 before and a
byte past MSG they record it. -/
theorem stepWithAll_msgWrites_past_msg {bytes : List Byte} {s : State} {j : Nat} (hi : s.phase = .idle)
    (hp : s.params.Legal) (hj : j + bytes.length ≤ 2 ^ 32)
    (h : (s.err = true ∧ s.ecode = .busAccess)
      ∨ (s.err = false ∧ j ≤ s.params.msgBytes ∧ s.params.msgBytes < j + bytes.length)) :
    ∃ t, stepWithAll (msgWrites s.params j bytes) s = .next t ∧ t.phase = .idle ∧ t.params = s.params
      ∧ t.err = true ∧ t.ecode = .busAccess := by
  induction bytes generalizing s j with
  | nil =>
    rcases h with h | ⟨-, h1, h2⟩
    · exact ⟨s, rfl, hi, rfl, h⟩
    · simp only [List.length_nil] at h2; omega
  | cons b bytes ih =>
    rw [List.length_cons] at hj h
    have hw := stepWith_wr8_msg b hi hp (j := j) (by omega)
    show ∃ t, andThen (stepWith (wr8 s.params (0x10000 + j) b) s) (stepWithAll (msgWrites s.params (j + 1) bytes)) = _ ∧ _
    rw [hw, andThen_next]
    by_cases hm : j < s.params.msgBytes
    · rw [if_pos hm]
      refine ih (s := { s with mem := s.mem.store (0x10000 + j) 1 (b.setWidth 32) }) hi hp (by omega) ?_
      rcases h with h | ⟨h, -, h2⟩
      · exact .inl h
      · exact .inr ⟨h, hm, by show s.params.msgBytes < j + 1 + bytes.length; omega⟩
    · rw [if_neg hm, raiseError_eq]
      refine ih (s := { s with err := true, ecode := if s.err then s.ecode else .busAccess }) hi hp (by omega) (.inl ⟨rfl, ?_⟩)
      rcases h with ⟨h, hc⟩ | ⟨h, -⟩
      · simp [hc]
      · simp [h]

/-- `MD5 "text"` for a text that MSG cannot hold, from any state in phase IDLE with ERR = 0: LOADMSG's writes past MSG record
BUS_ACCESS, which DIGEST's LEN_RANGE does not replace, and there is no digest. -/
theorem md5Program_of_too_long {s : State} {text : List (BitVec 16)} (latency : Nat) (hi : s.phase = .idle)
    (hp : s.params.Legal) (he : s.err = false) (hl : s.params.msgBytes < (hostBytes text).length)
    (hlen : (hostBytes text).length < 2 ^ 32) :
    ∃ v, md5Program latency text s = some (.next v) ∧ v.ecode = .busAccess ∧ md5Result v = none := by
  generalize hb : hostBytes text = bytes at hl hlen
  obtain ⟨q, hq, hqi, hqp, hqe, hqc⟩ := stepWithAll_msgWrites_past_msg (bytes := bytes) (j := 0) hi hp (by omega)
    (.inr ⟨he, by omega, by omega⟩)
  let r : State := { q with len := BitVec.ofNat 32 bytes.length }
  have hload : stepWithAll (msgWrites s.params 0 bytes ++ [wr32 s.params 0x008 (BitVec.ofNat 32 bytes.length)]
      ++ issue s.params .digest) s = .next (accept .digest r) := by
    rw [stepWithAll_append, stepWithAll_append, hq, andThen_next, ← hqp]
    have h1 : stepWithAll [wr32 q.params 0x008 (BitVec.ofNat 32 bytes.length)] q = .next r := by
      show andThen (stepWith _ _) (stepWithAll []) = _
      rw [stepWith_wr_len _ hqi]
      rfl
    rw [h1, andThen_next]
    exact stepWithAll_issue (s := r) .digest hqi
  obtain ⟨log, t, v, ht, hv, hc, hr⟩ := md5_end (s := accept .digest r) latency rfl
  have hrange : lengthError { accept .digest r with readLog := log } = some .lenRange := by
    refine lengthError_lenRange ?_
    show q.params.msgBytes < (BitVec.ofNat 32 bytes.length).toNat
    rw [BitVec.toNat_ofNat, Nat.mod_eq_of_lt hlen, hqp]
    exact hl
  have hx := exec_digest_error hrange
  rw [show exec .digest _ = _ from ht] at hx
  cases hx
  rw [raiseError_eq] at hc hr
  refine ⟨v, ?_, hc.trans ?_, hr⟩
  · unfold md5Program digestProgram
    rw [hb, loadMsg, lenWrite, if_pos hlen]
    simp only [Option.map_some]
    rw [hload, andThen_next, hv]
  · show (if q.err then q.ecode else .lenRange) = ErrCode.busAccess
    rw [hqe, hqc]; rfl

end Sys2Proof.Machine
end

