-- ==== Sys2Proof/Laws/PerInstr.lean ====
section
/-! SUPPORT. The family Shape, one lemma for each constructor of Instr: how many bytes an instruction's encoding has, and
how large each can be. -/

namespace Sys2Proof.Laws.Shape

/-- The number of bytes of a format, and a bound that every byte of its encodings keeps: a CMD word is four bytes and only
OP is not 0 (30_encoding.md R80); a STEP word has 6 bits (R81), an FSEL word 2 (R82). -/
def bounds : Format → Nat × Nat
  | .cmd => (4, 16)
  | .step => (1, 64)
  | .fsel => (1, 4)

/-- The encoding of an instruction has its format's number of bytes, each within its format's bound. -/
def Statement (instr : Instr) : Prop :=
  (encode instr).length = (bounds instr.format).1 ∧ ∀ b ∈ encode instr, b.toNat < (bounds instr.format).2

theorem nop : Statement .nop := by unfold Statement; decide

theorem init : Statement .init := by unfold Statement; decide

theorem pack : Statement .pack := by unfold Statement; decide

theorem compress : Statement .compress := by unfold Statement; decide

theorem fold : Statement .fold := by unfold Statement; decide

theorem digest : Statement .digest := by unfold Statement; decide

theorem reserved67 : ∀ op : BitVec 4, Statement (.reserved67 op) := by unfold Statement; decide

theorem reserved8F : ∀ op : BitVec 4, Statement (.reserved8F op) := by unfold Statement; decide

theorem ff : ∀ j : BitVec 4, Statement (.ff j) := by unfold Statement; decide

theorem gg : ∀ j : BitVec 4, Statement (.gg j) := by unfold Statement; decide

theorem hh : ∀ j : BitVec 4, Statement (.hh j) := by unfold Statement; decide

theorem ii : ∀ j : BitVec 4, Statement (.ii j) := by unfold Statement; decide

theorem f : Statement .f := by unfold Statement; decide

theorem g : Statement .g := by unfold Statement; decide

theorem h : Statement .h := by unfold Statement; decide

theorem i : Statement .i := by unfold Statement; decide

end Sys2Proof.Laws.Shape
end

