-- ==== Sys2Proof/Tests/Slice0.lean ====
section
/-! SUPPORT. Tests. Expected values are those of spec/95_test_vectors.md (its section is named at each test) or words
written out from spec/30_encoding.md; the last part gives, for each statement with hypotheses, a state that meets them. -/

namespace Sys2Proof.Tests

open Sys2Proof.Machine Sys2Proof.Safety

/-! ### Helpers -/

/-- The next state, if there is one. -/
def after (o : Host.Outcome State Fault Refusal) : Option State :=
  match o with
  | .next t => some t
  | .fault _ => none
  | .refused _ => none

/-- The reset state with events to come. -/
def idleWith (es : List Event) : State := { State.reset with sched := es }

/-- The same, while a command runs. -/
def busyWith (c : Command) (es : List Event) : State := { State.reset with phase := .exec c, sched := es }

/-- The reset state with a message in MSG and its length in LEN. -/
def loaded (bytes : List Byte) : State :=
  { State.reset with len := BitVec.ofNat 32 bytes.length, mem := bytes.mapIdx fun j b => (0x10000 + j, b) }

/-- A state at a step: working registers, a block whose words 0 and 14 are given and whose others are 0. -/
def atStep (a b c d w0 w14 : Word) : State :=
  { State.reset with
    work := { a := a, b := b, c := c, d := d }
    X := Vector.ofFn fun k => if k.val = 0 then w0 else if k.val = 14 then w14 else 0 }

/-- A state with one block of words in WMEM, words 0 and 14 given and the others 0. -/
def withBlock (w0 w14 : Word) : State :=
  let words : List Word := [w0] ++ List.replicate 13 0 ++ [w14, 0]
  { State.reset with
    nblk := 1
    mem := (words.flatMap fun w => (List.range 4).map (byteOfWord w)).mapIdx fun j b => (0x04000 + j, b) }

/-- A state with ERR and ECODE recorded. -/
def withError (code : ErrCode) (es : List Event) : State :=
  { State.reset with err := true, ecode := code, sched := es }

/-- The 8 words of the HEX registers. -/
def hexWords (s : State) : List Word := (List.range 8).map s.hexWord

/-! ### Well-formedness: an ill-formed term for each check -/

theorem test_wf_refuses_reserved67_of_a_command : (Instr.reserved67 5).wf = false := by decide

theorem test_wf_refuses_reserved67_of_the_other_row : (Instr.reserved67 8).wf = false := by decide

theorem test_wf_refuses_reserved8F_of_the_other_row : (Instr.reserved8F 7).wf = false := by decide

theorem test_wf_accepts_the_bounds :
    (Instr.reserved67 6).wf ∧ (Instr.reserved67 7).wf ∧ (Instr.reserved8F 8).wf ∧ (Instr.reserved8F 15).wf := by decide

/-! ### Decoding: words written out bit by bit (30_encoding.md R80 to R89) -/

theorem test_decode_commands :
    decodeCmd 0b0000_0000_0000_0000_0000_0000_0000_0000 = .nop
    ∧ decodeCmd 0b0000_0000_0000_0000_0000_0000_0000_0001 = .init
    ∧ decodeCmd 0b0000_0000_0000_0000_0000_0000_0000_0010 = .pack
    ∧ decodeCmd 0b0000_0000_0000_0000_0000_0000_0000_0011 = .compress
    ∧ decodeCmd 0b0000_0000_0000_0000_0000_0000_0000_0100 = .fold
    ∧ decodeCmd 0b0000_0000_0000_0000_0000_0000_0000_0101 = .digest := by decide

theorem test_decode_reserved_codes :
    decodeCmd 0b0110 = .reserved67 6 ∧ decodeCmd 0b0111 = .reserved67 7
    ∧ decodeCmd 0b1000 = .reserved8F 8 ∧ decodeCmd 0b1111 = .reserved8F 15 := by decide

theorem test_decode_ignores_high_bits :
    decodeCmd 0b1111_1111_1111_1111_1111_1111_1111_0011 = .compress ∧ decodeCmd 0b1_0000 = .nop := by decide

theorem test_decode_steps :
    decodeStep 0b00_0000 = .ff 0 ∧ decodeStep 0b00_1101 = .ff 13 ∧ decodeStep 0b01_0000 = .gg 0
    ∧ decodeStep 0b01_1110 = .gg 14 ∧ decodeStep 0b10_0001 = .hh 1 ∧ decodeStep 0b10_1111 = .hh 15
    ∧ decodeStep 0b11_0010 = .ii 2 ∧ decodeStep 0b11_1111 = .ii 15 := by decide

theorem test_decode_selects :
    decodeFsel 0b00 = .f ∧ decodeFsel 0b01 = .g ∧ decodeFsel 0b10 = .h ∧ decodeFsel 0b11 = .i := by decide

theorem test_decode_bytes :
    decode .cmd [0x05, 0x00, 0x00, 0x00] = .ok .digest ∧ decode .cmd [0x00, 0x05, 0x00, 0x00] = .ok .nop
    ∧ decode .step [0x3F] = .ok (.ii 15) ∧ decode .fsel [0x02] = .ok .h := by decide

theorem test_decode_rejects_by_name :
    decode .cmd [0x05] = .error .wrongLength ∧ decode .step [] = .error .wrongLength
    ∧ decode .step [0x40] = .error .overSixBits ∧ decode .fsel [0x04] = .error .overTwoBits := by decide

theorem test_table_words :
    decodeTableWord 8 0x0 = some .nop ∧ decodeTableWord 8 0x1 = some .init ∧ decodeTableWord 8 0x2 = some .pack
    ∧ decodeTableWord 8 0x3 = some .compress ∧ decodeTableWord 8 0x4 = some .fold
    ∧ decodeTableWord 8 0x5 = some .digest ∧ decodeTableWord 8 0x6 = some (.reserved67 6)
    ∧ decodeTableWord 8 0x8 = some (.reserved8F 8) ∧ decodeTableWord 8 0x10 = some (.gg 0)
    ∧ decodeTableWord 8 0x20 = some (.hh 0) ∧ decodeTableWord 8 0x30 = some (.ii 0)
    ∧ decodeTableWord 6 0x00 = some (.ff 0) ∧ decodeTableWord 2 0 = some .f ∧ decodeTableWord 2 1 = some .g
    ∧ decodeTableWord 2 2 = some .h ∧ decodeTableWord 2 3 = some .i := by decide

/-! ### Arithmetic (95 section 2.1 to 2.3) -/

theorem test_add32 :
    add32 0xFFFFFFFF 0x00000001 = 0x00000000 ∧ add32 0x12345678 0x9ABCDEF0 = 0xACF13568
    ∧ add32 0xD76AA478 0x67452301 = 0x3EAFC779 := by decide

theorem test_rotl32 :
    rotl32 0x80000001 7 = 0x000000C0 ∧ rotl32 0x12345678 23 = 0x3C091A2B ∧ rotl32 0x80000000 1 = 0x00000001
    ∧ rotl32 0x12345678 0 = 0x12345678 := by decide

theorem test_round_functions :
    fnF 0xFF00FF00 0x0F0F0F0F 0x33333333 = 0x0F330F33 ∧ fnG 0xFF00FF00 0x0F0F0F0F 0x33333333 = 0x3F0C3F0C
    ∧ fnH 0xFF00FF00 0x0F0F0F0F 0x33333333 = 0xC33CC33C ∧ fnI 0xFF00FF00 0x0F0F0F0F 0x33333333 = 0xF0C3F0C3 := by decide

/-! ### Step operations (95 section 2.4) -/

theorem test_ff_0 :
    (after (exec (.ff 0) (atStep 0x67452301 0xEFCDAB89 0x98BADCFE 0x10325476 0x80636261 0x18))).map (·.work) =
      some { a := 0xD6D117B4, b := 0xEFCDAB89, c := 0x98BADCFE, d := 0x10325476 } := by decide

theorem test_ff_15 :
    (after (exec (.ff 15) (atStep 0xF56C7CF1 0x70768A29 0x5AA53F75 0x374943A7 0x80 0))).map (·.work) =
      some { a := 0xF56C7CF1, b := 0xD6819C6A, c := 0x5AA53F75, d := 0x374943A7 } := by decide

theorem test_gg_16 :
    (after (exec (.gg 0) (atStep 0xF56C7CF1 0xD6819C6A 0x5AA53F75 0x374943A7 0x80 0))).map (·.work) =
      some { a := 0x1C7D7513, b := 0xD6819C6A, c := 0x5AA53F75, d := 0x374943A7 } := by decide

theorem test_hh_32 :
    (after (exec (.hh 0) (atStep 0x13707036 0xA2205F1F 0x1C31C384 0xAE7813DB 0x80 0))).map (·.work) =
      some { a := 0xDF63EAA1, b := 0xA2205F1F, c := 0x1C31C384, d := 0xAE7813DB } := by decide

theorem test_ii_48 :
    (after (exec (.ii 0) (atStep 0x7F2E507B 0x7BEB9700 0x8FAE6399 0x99D9679D 0x80636261 0x18))).map (·.work) =
      some { a := 0x7B201DF8, b := 0x7BEB9700, c := 0x8FAE6399, d := 0x99D9679D } := by decide

theorem test_ii_63 :
    (after (exec (.ii 15) (atStep 0x7246FAD3 0x30130182 0xFF4EA3EB 0x6E10A476 0x80 0))).map (fun t => (t.work.b, t.step)) =
      some (0x14E45506, 0) := by decide

/-! ### Round functions run alone (95 section 2.4, the column f) -/

theorem test_f_at_step_1 :
    (after (exec .f { atStep 0xA5202774 0xEFCDAB89 0x98BADCFE 0x10325476 0x80 0 with step := 1 })).map (·.fval) =
      some 0xBD9AFB8A := by decide

theorem test_g_at_step_16 :
    (after (exec .g { atStep 0xF56C7CF1 0xD6819C6A 0x5AA53F75 0x374943A7 0x80 0 with step := 16 })).map (·.fval) =
      some 0x5EA53C72 := by decide

theorem test_h_at_step_32 :
    (after (exec .h { atStep 0x13707036 0xA2205F1F 0x1C31C384 0xAE7813DB 0x80 0 with step := 32 })).map (·.fval) =
      some 0x10698F40 := by decide

theorem test_i_at_step_63 :
    (after (exec .i { atStep 0x7246FAD3 0x30130182 0xFF4EA3EB 0x6E10A476 0x80 0 with step := 63 })).map (·.fval) =
      some 0x91EF0399 := by decide

/-! ### Commands (95 sections 2.7 to 2.9, 2.11, 2.13) -/

theorem test_nop_keeps_done :
    (after (step { busyWith .nop [.engine] with done := true })).map (·.status) = some 0x00000002 := by decide

theorem test_init_loads_iv :
    (after (exec .init { State.reset with chain := { a := 1, b := 2, c := 3, d := 4 }, blkidx := 7 })).map
      (fun t => (t.chain, t.blkidx)) =
      some ({ a := 0x67452301, b := 0xEFCDAB89, c := 0x98BADCFE, d := 0x10325476 }, 0) := by decide

theorem test_pack_of_seven_bytes :
    (after (exec .pack (loaded [1, 2, 3, 4, 5, 6, 7]))).map (fun t => (t.nblk, t.W 0, t.W 1, t.W 2, t.W 14, t.W 15)) =
      some (1, 0x04030201, 0x80070605, 0, 0x00000038, 0) := by decide +kernel

theorem test_pack_of_the_block_boundary :
    (after (exec .pack (loaded (List.replicate 56 0x61)))).map (fun t => (t.nblk, t.W 13, t.W 14, t.W 15, t.W 30, t.W 31)) =
      some (2, 0x61616161, 0x00000080, 0, 0x000001C0, 0) := by decide +kernel

theorem test_compress_of_the_empty_block :
    (after (exec .compress (withBlock 0x00000080 0))).map (fun t => (t.chain, t.blkidx)) =
      some ({ a := 0xD98C1DD4, b := 0x04B2008F, c := 0x980980E9, d := 0x7E42F8EC }, 1) := by decide +kernel

theorem test_compress_accumulates :
    (after (exec .compress { withBlock 0x00000080 0 with
        chain := { a := 0x98500190, b := 0xB04FD23C, c := 0x7D3F96D6, d := 0x727FE128 } })).map (·.chain) =
      some { a := 0x378B600A, b := 0xE8B51235, c := 0xC70118BF, d := 0x73F8E7F8 } := by decide +kernel

theorem test_fold :
    (after (exec .fold { State.reset with
        chain := { a := 0x01234567, b := 0x89ABCDEF, c := 0xFEDCBA98, d := 0x76543210 } })).map
      (fun t => (hexWords t, t.status)) =
      some ([0x35343736, 0x31303332, 0x64636665, 0x39386261, 0x61623839, 0x65666364, 0x32333031, 0x36373435], 2) := by
  decide

theorem test_digest_of_abc :
    (after (exec .digest (loaded [0x61, 0x62, 0x63]))).map (fun t => (hexWords t, t.nblk, t.blkidx, t.status)) =
      some ([0x31303039, 0x38393035, 0x32646333, 0x30626634, 0x36393664, 0x64376633, 0x31653832, 0x32376637],
        1, 1, 0x00000002) := by decide +kernel

theorem test_digest_of_two_blocks :
    (after (exec .digest (loaded (List.replicate 56 0x61)))).map (fun t => (t.chain, t.nblk)) =
      some ({ a := 0xC78A0C3B, b := 0xB028F803, c := 0x70196C4C, d := 0x1872D106 }, 2) := by decide +kernel

theorem test_reserved_codes :
    (after (exec (.reserved67 6) State.reset)).map (·.status) = some 0x00000104
    ∧ (after (exec (.reserved8F 9) (withError .lenRange []))).map (·.status) = some 0x00000204 := by decide

theorem test_errors_of_pack_and_compress :
    (after (exec .pack { State.reset with len := 4097 })).map (·.status) = some 0x00000204
    ∧ (after (exec .digest { State.reset with params := { Params.default with wmemBlocks := 1 }, len := 56 })).map
        (fun t => (t.status, t.nblk)) = some (0x00000304, 0)
    ∧ (after (exec .compress State.reset)).map (·.status) = some 0x00000404 := by decide

/-! ### Bus accesses and errors (95 sections 2.12, 2.13) -/

theorem test_nblk_is_warl :
    (after (step (idleWith [wr32 Params.default 0x00C 300]))).map (·.nblk) = some 65
    ∧ (after (step (idleWith [wr32 Params.default 0x00C 0x00010003]))).map (·.nblk) = some 3
    ∧ (after (step (idleWith [wr32 Params.default 0x010 0xFFFF]))).map (·.blkidx) = some 65 := by decide

theorem test_reads_of_the_reset_state :
    (after (step (idleWith [rd32 Params.default 0x020]))).map (·.readLog) = some [0x67452301]
    ∧ (after (step (idleWith [rd32 Params.default 0x000]))).map (·.readLog) = some [0]
    ∧ (after (step (idleWith [rd32 Params.default 0x040]))).map (·.readLog) = some [0]
    ∧ (after (step (idleWith [rd32 Params.default 0x080]))).map (·.readLog) = some [0] := by decide

theorem test_msg_word_is_little_endian :
    (after (step (idleWith [wr32 Params.default 0x10000 0x64636261]))).map (·.mem) =
      some [(0x10000, 0x61), (0x10001, 0x62), (0x10002, 0x63), (0x10003, 0x64)] := by decide

theorem test_illegal_accesses :
    (after (step (idleWith [rd32 Params.default 0x10001]))).map (fun t => (t.readLog, t.status)) = some ([0], 0x604)
    ∧ (after (step (idleWith [rd8 Params.default 0x000]))).map (·.status) = some 0x604
    ∧ (after (step (idleWith [wr8 Params.default 0x04000 1]))).map (fun t => (t.mem, t.status)) = some ([], 0x604)
    ∧ (after (step (idleWith [.read (busAddr Params.default 0x10000) 2]))).map (·.status) = some 0x604
    ∧ (after (step (idleWith [rd32 Params.default (0x04000 + 4 * 1040)]))).map (·.status) = some 0x604
    ∧ (after (step (idleWith [rd32 Params.default (0x10000 + 4096)]))).map (·.status) = some 0x604
    ∧ (after (step (idleWith [wr32 Params.default (0x10000 + 4092) 0]))).map (·.status) = some 0 := by decide

theorem test_status_write :
    (after (step (withError .busAccess [wr32 Params.default 0x004 0xFFFFFFFF]))).map (·.status) = some 0
    ∧ (after (step (withError .busAccess [wr32 Params.default 0x004 0x3]))).map (·.status) = some 0x604 := by decide

theorem test_command_writes :
    (after (step (idleWith [wr32 Params.default 0x000 0x15]))).map (fun t => (t.status, t.phase)) = some (1, .exec .digest)
    ∧ (after (step (idleWith [wr32 Params.default 0x000 0xF]))).map (·.status) = some 0x104
    ∧ (after (step (busyWith .nop [wr32 Params.default 0x000 1]))).map (·.status) = some 0x505
    ∧ (after (step { idleWith [wr32 Params.default 0x000 1] with done := true })).map (·.status) = some 1 := by decide

theorem test_busy_accesses :
    (after (step (busyWith .digest [rd32 Params.default 0x008]))).map (·.readLog) = some [0]
    ∧ (after (step (busyWith .digest [wr32 Params.default 0x020 0]))).map (·.status) = some 1
    ∧ (after (step (busyWith .digest [rd32 Params.default 0x020]))).map (·.draws) = some 1 := by decide

theorem test_reset_during_a_command :
    (after (step { busyWith .digest [.reset] with done := true, len := 5 })).map (fun t => (t.status, t.len, t.phase)) =
      some (0, 0, .idle) := by decide

/-! ### The host's bytes (95 section 2.10) -/

theorem test_host_bytes :
    hostBytes [0x0080] = [0xC2, 0x80] ∧ hostBytes [0x0800] = [0xE0, 0xA0, 0x80]
    ∧ hostBytes [0xD83D, 0xDE00] = [0xED, 0xA0, 0xBD, 0xED, 0xB8, 0x80]
    ∧ hostBytes [0x61, 0x0D, 0x0A, 0x62] = [0x61, 0x0A, 0x62] ∧ hostBytes [0x0D, 0x0D, 0x0A] = [0x0D, 0x0A] := by decide

theorem test_load_msg :
    loadMsg Params.default [0x61, 0x62] = some [.write 0x10000 1 0x61, .write 0x10001 1 0x62, .write 0x8 4 2]
    ∧ lenWrite Params.default (2 ^ 32) = none := by decide

theorem test_md5_load_of_a_text_over_msg :
    md5Load { Params.default with msgBytes := 1 } [0x61, 0x62] = some [.write 0x8 4 2] := by decide

/-- POLL (95 section 3, P4 line 14): it reads 0x00000505 while busy and then 0x00000504. -/
theorem test_poll :
    (after (poll 1 { busyWith .nop [] with err := true, ecode := .busyWrite })).map (·.readLog) = some [0x504, 0x505]
    ∧ (after (poll 5 State.reset)).map (·.readLog) = some [0] := by decide

/-- READHEX (95 section 3, P1): the words read, newest first, and the string "900150983cd24fb0d6963f7d28e17f72". -/
theorem test_md5_result :
    let words : List Word := [0x32376637, 0x31653832, 0x64376633, 0x36393664, 0x30626634, 0x32646333, 0x38393035, 0x31303039]
    md5Result { State.reset with readLog := words ++ [0x00000002] } =
      some [0x39, 0x30, 0x30, 0x31, 0x35, 0x30, 0x39, 0x38, 0x33, 0x63, 0x64, 0x32, 0x34, 0x66, 0x62, 0x30,
            0x64, 0x36, 0x39, 0x36, 0x33, 0x66, 0x37, 0x64, 0x32, 0x38, 0x65, 0x31, 0x37, 0x66, 0x37, 0x32]
    ∧ md5Result { State.reset with readLog := words ++ [0x00000406] } = none := by decide

/-! ### The memory's canonical form and the placed word -/

theorem test_memory_wf_at_reset : Memory.wf State.reset.mem := by decide

theorem test_memory_write_keeps_one_cell_for_an_address :
    Memory.write (Memory.write (Memory.write [] 5 1) 3 2) 5 4 = [(3, 2), (5, 4)] := by decide

theorem test_placed_word_runs_next :
    (after (step (State.reset.withFetchWord 8 0x4))).map (fun t => (t.done, t.status)) = some (true, 2)
    ∧ (after (step (State.reset.withFetchWord 8 0x9))).map (·.status) = some 0x104
    ∧ (after (step (State.reset.withFetchWord 8 0x1F))).map (·.step) = some 0x20 := by decide

/-! ### Witnesses: for each statement with hypotheses, states and operands that meet them -/

theorem witness_CompressWithABlock : (withBlock 0x80 0).blkidx < (withBlock 0x80 0).nblk := by decide

theorem witness_CompressWithoutBlock : State.reset.nblk ≤ State.reset.blkidx := by decide

theorem witness_HexIsLowercaseHexadecimal :
    (∃ t, exec .fold State.reset = .next t) ∧ ∃ t, exec .digest State.reset = .next t ∧ Fits State.reset :=
  ⟨⟨_, rfl⟩, _, exec_digest_fits (by decide), by decide⟩

/-- PackBuildsThePaddedMessage, DigestComputesMd5, DigestEqualsTheStagedCommands: lengths 0, 55, 56 and the longest. -/
theorem witness_LegalAndFits :
    State.reset.params.Legal ∧ Fits { State.reset with len := 0 } ∧ Fits { State.reset with len := 55 }
    ∧ Fits { State.reset with len := 56 } ∧ Fits { State.reset with len := 4096 } := by decide

theorem witness_PackStoresTheBitLength :
    State.reset.params.Legal ∧ Fits State.reset ∧ ∃ t, exec .pack State.reset = .next t :=
  ⟨by decide, by decide, _, exec_pack_fits (by decide)⟩

theorem witness_PackOfEmptyMessage : State.reset.params.Legal ∧ State.reset.len = 0 := by decide

theorem witness_LengthOverMemory :
    Params.default.msgBytes < (4097 : Word).toNat ∧ Params.default.msgBytes < (0xFFFFFFFF : Word).toNat := by decide

theorem witness_TooManyBlocks :
    let p : Params := { Params.default with wmemBlocks := 1 }
    (56 : Word).toNat ≤ p.msgBytes ∧ p.wmemBlocks < ((56 : Word).toNat + 8) / 64 + 1 := by decide

theorem witness_ReservedCodes : ((6 : BitVec 4) = 6 ∨ (6 : BitVec 4) = 7) ∧ (8 : BitVec 4) ≤ 8 ∧ (8 : BitVec 4) ≤ 15 := by
  decide

theorem witness_CmdWriteIssuesTheCommand (c : Command) :
    let s := idleWith [wr32 Params.default 0x000 (0xFFFFFFF0 ||| opCode c)]
    s.phase = .idle ∧ s.sched = [.write (busAddr s.params 0x000) 4 (0xFFFFFFF0 ||| opCode c)]
    ∧ (0xFFFFFFF0 ||| opCode c) &&& 0xF = opCode c := ⟨rfl, rfl, by cases c <;> decide⟩

theorem witness_CmdWriteIssuesTheCommand_reserved :
    (∀ v : Word, let s := idleWith [wr32 Params.default 0x000 v]
      s.phase = .idle ∧ s.sched = [.write (busAddr s.params 0x000) 4 v])
    ∧ 6 ≤ ((6 : Word) &&& 0xF).toNat ∧ 6 ≤ ((0x17 : Word) &&& 0xF).toNat ∧ 6 ≤ ((0xFFFFFFFF : Word) &&& 0xF).toNat :=
  ⟨fun _ => ⟨rfl, rfl⟩, by decide⟩

theorem witness_BusyWritesAreDropped :
    ∀ a ∈ ([(0x000, 4), (0x008, 4), (0x00C, 4), (0x010, 4), (0x04000, 4), (0x0503C, 4), (0x10000, 1), (0x10FFF, 1),
        (0x10FFC, 4)] : List (Nat × Nat)),
      let s := busyWith .pack [.write (busAddr Params.default a.1) a.2 9]
      s.phase ≠ .idle ∧ a.1 < 2 ^ 32 ∧ s.sched = [.write (busAddr s.params a.1) a.2 9] ∧ legal s.params a.1 a.2
      ∧ (a.1 = 0x000 ∨ a.1 = 0x008 ∨ a.1 = 0x00C ∨ a.1 = 0x010 ∨ 0x04000 ≤ a.1) := by decide

theorem witness_IllegalAccess :
    ∀ a ∈ ([(0x002, 4), (0x000, 1), (0x100, 4), (0x03FFC, 4), (0x04001, 4), (0x05040, 4), (0x10FFD, 4), (0x11000, 1),
        (0x10000, 2), (0xFFFFFFFF, 1)] : List (Nat × Nat)),
      let r := idleWith [.read (busAddr Params.default a.1) a.2]
      let w := idleWith [.write (busAddr Params.default a.1) a.2 0]
      a.1 < 2 ^ 32 ∧ ¬ legal Params.default a.1 a.2
      ∧ r.sched = [.read (busAddr r.params a.1) a.2] ∧ w.sched = [.write (busAddr w.params a.1) a.2 0] := by decide

theorem witness_StatusWrite :
    ∀ v : Word, let s := withError .busAccess [wr32 Params.default 0x004 v]
      s.sched = [.write (busAddr s.params 0x004) 4 v] := fun _ => rfl

theorem witness_IdleRegisterWrites :
    ∀ off ∈ [0x008, 0x00C, 0x010], let s := idleWith [wr32 Params.default off 300]
      s.phase = .idle ∧ s.sched = [.write (busAddr s.params off) 4 300] := by decide

theorem witness_IdleMemoryWrites :
    ∀ a ∈ ([(0x04000, 4), (0x0503C, 4), (0x10000, 1), (0x10FFF, 1), (0x10FFC, 4)] : List (Nat × Nat)),
      let s := idleWith [.write (busAddr Params.default a.1) a.2 9]
      s.phase = .idle ∧ a.1 < 2 ^ 32 ∧ 0x04000 ≤ a.1 ∧ legal s.params a.1 a.2
      ∧ s.sched = [.write (busAddr s.params a.1) a.2 9] := by decide

theorem witness_ReservedRegisters :
    ∀ off ∈ [0x014, 0x01C, 0x030, 0x03C, 0x060, 0x0FC],
      let r := busyWith .nop [rd32 Params.default off]
      let w := busyWith .nop [wr32 Params.default off 1]
      off % 4 = 0 ∧ ((0x014 ≤ off ∧ off ≤ 0x01C) ∨ (0x030 ≤ off ∧ off ≤ 0x03C) ∨ (0x060 ≤ off ∧ off ≤ 0x0FC))
      ∧ r.sched = [.read (busAddr r.params off) 4] ∧ w.sched = [.write (busAddr w.params off) 4 1] := by decide

theorem witness_ReadOnlyWrites :
    ∀ off ∈ [0x014, 0x020, 0x02C, 0x03C, 0x040, 0x05C, 0x060, 0x0FC], let s := busyWith .nop [wr32 Params.default off 1]
      off ≤ 0x0FC ∧ off % 4 = 0 ∧ off ≠ 0x000 ∧ off ≠ 0x004 ∧ off ≠ 0x008 ∧ off ≠ 0x00C ∧ off ≠ 0x010
      ∧ s.sched = [.write (busAddr s.params off) 4 1] := by decide

theorem witness_ExactReads_registers :
    ∀ off ∈ [0x000, 0x004, 0x008, 0x00C, 0x010, 0x014, 0x01C, 0x020, 0x024, 0x028, 0x02C, 0x030, 0x03C, 0x040, 0x05C,
        0x060, 0x0FC], let s := idleWith [rd32 Params.default off]
      s.phase = .idle ∧ s.sched = [.read (busAddr s.params off) 4] ∧ off % 4 = 0 := by decide

theorem witness_ExactReads_memories :
    (∀ off ∈ [0x10000, 0x10FFF], let s := idleWith [rd8 Params.default off]
      s.sched = [.read (busAddr s.params off) 1] ∧ 0x10000 ≤ off ∧ off < 0x10000 + s.params.msgBytes ∧ off < 2 ^ 32)
    ∧ (∀ off ∈ [0x10000, 0x10FFC], let s := idleWith [rd32 Params.default off]
      s.sched = [.read (busAddr s.params off) 4] ∧ off % 4 = 0 ∧ 0x10000 ≤ off
      ∧ off + 4 ≤ 0x10000 + s.params.msgBytes ∧ off < 2 ^ 32)
    ∧ ∀ off ∈ [0x04000, 0x0503C], let s := idleWith [rd32 Params.default off]
      s.phase = .idle ∧ s.sched = [.read (busAddr s.params off) 4] ∧ off % 4 = 0 ∧ 0x04000 ≤ off
      ∧ off + 4 ≤ 0x04000 + 64 * s.params.wmemBlocks ∧ off < 0x10000 := by decide

theorem witness_BusyReads :
    ∀ off ∈ [0x00C, 0x010, 0x020, 0x02C, 0x040, 0x05C, 0x04000, 0x0503C], let s := busyWith .pack [rd32 Params.default off]
      s.phase ≠ .idle ∧ legal s.params off 4
      ∧ (off = 0x00C ∨ off = 0x010 ∨ (0x020 ≤ off ∧ off ≤ 0x02C) ∨ (0x040 ≤ off ∧ off ≤ 0x05C)
        ∨ (0x04000 ≤ off ∧ off < 0x10000))
      ∧ s.sched = [.read (busAddr s.params off) 4] := by decide

theorem witness_MsgWordWriteByteRead :
    ∀ k ∈ [0, 1023],
      let s := idleWith [wr32 Params.default (0x10000 + 4 * k) 7, rd8 Params.default (0x10000 + 4 * k + 3)]
      s.phase = .idle ∧ s.params.Legal ∧ 4 * k + 4 ≤ s.params.msgBytes
      ∧ s.sched = [wr32 s.params (0x10000 + 4 * k) 7, rd8 s.params (0x10000 + 4 * k + 3)] := by decide

theorem witness_StepRuns_command :
    ∀ w ∈ ([0x6, 0xF, 0x0, 0x15] : List Word), let s := idleWith [wr32 Params.default 0x000 w]
      s.phase = .idle ∧ s.sched = [.write (busAddr s.params 0x000) 4 w]
      ∧ decode .cmd [byteOfWord w 0, byteOfWord w 1, byteOfWord w 2, byteOfWord w 3] = .ok (decodeCmd w)
      ∧ (commandOf (decodeCmd w) = none ∨ ∃ c, commandOf (decodeCmd w) = some c
          ∧ (busyWith c []).phase = .exec c ∧ (busyWith c []).sched = []
          ∧ (busyWith c [.engine]).sched = [.engine]) := by
  intro w hw
  simp only [List.mem_cons, List.not_mem_nil, or_false] at hw
  rcases hw with rfl | rfl | rfl | rfl
  · exact ⟨rfl, rfl, rfl, .inl rfl⟩
  · exact ⟨rfl, rfl, rfl, .inl rfl⟩
  · exact ⟨rfl, rfl, rfl, .inr ⟨.nop, rfl, rfl, rfl, rfl⟩⟩
  · exact ⟨rfl, rfl, rfl, .inr ⟨.digest, rfl, rfl, rfl, rfl⟩⟩

theorem witness_StepRuns_internal_words :
    (idleWith [.stepWord 0x3F]).sched = [.stepWord 0x3F] ∧ decode .step [(0x3F : BitVec 6).setWidth 8] = .ok (.ii 15)
    ∧ (idleWith [.fselWord 2]).sched = [.fselWord 2] ∧ decode .fsel [(2 : BitVec 2).setWidth 8] = .ok .h := by decide

theorem witness_PlacedWordRunsNext :
    decodeTableWord 32 0x5 = some .digest ∧ decodeTableWord 8 0x9 = some (.reserved8F 9)
    ∧ decodeTableWord 8 0x3F = some (.ii 15) ∧ decodeTableWord 2 2 = some .h := by decide

theorem witness_IdleEngine :
    State.reset.phase = .idle ∧ State.reset.sched = [] ∧ (idleWith [.engine]).sched = [.engine] := by decide

theorem witness_Reset : (busyWith .digest [.reset]).sched = [.reset] := by decide

theorem witness_ParametersNeverChange : ∃ t, step (idleWith [wr32 Params.default 0x008 3]) = .next t := ⟨_, rfl⟩

theorem witness_ChainingRegistersWriters :
    let moved (s : State) : State := { s with chain := { a := 1, b := 2, c := 3, d := 4 } }
    (∃ t, step (moved (idleWith [.reset])) = .next t ∧ t.chain ≠ (moved (idleWith [.reset])).chain)
    ∧ (∃ t, step (moved (busyWith .init [])) = .next t ∧ t.chain ≠ (moved (busyWith .init [])).chain)
    ∧ ∃ t, step (moved (busyWith .init [.engine])) = .next t ∧ t.chain ≠ (moved (busyWith .init [.engine])).chain :=
  ⟨⟨_, rfl, by decide⟩, ⟨_, rfl, by decide⟩, _, rfl, by decide⟩

theorem witness_HexWriters :
    (∃ t, step (busyWith .fold [.engine]) = .next t ∧ t.hex ≠ (busyWith .fold [.engine]).hex)
    ∧ ∃ t, step { idleWith [.reset] with hex := Vector.replicate 32 0x30 } = .next t
        ∧ t.hex ≠ Vector.replicate 32 0x30 :=
  ⟨⟨_, rfl, by decide⟩, _, rfl, by decide⟩

theorem witness_DoneWriters :
    (∃ t, step (busyWith .fold [.engine]) = .next t ∧ (busyWith .fold [.engine]).done = false ∧ t.done = true)
    ∧ (∃ t, step { idleWith [.reset] with done := true } = .next t ∧ t.done = false)
    ∧ ∃ t, step { idleWith [wr32 Params.default 0x000 1] with done := true } = .next t ∧ t.done = false :=
  ⟨⟨_, rfl, by decide, by decide⟩, ⟨_, rfl, by decide⟩, _, rfl, by decide⟩

theorem witness_ErrorRecordWriters :
    (∃ t, step (withError .noBlock [.reset]) = .next t ∧ ¬ (t.err = true ∧ t.ecode = .noBlock))
    ∧ (∃ t, step (withError .noBlock [wr32 Params.default 0x004 4]) = .next t ∧ ¬ (t.err = true ∧ t.ecode = .noBlock))
    ∧ ∃ t, step (idleWith [wr32 Params.default 0x000 9]) = .next t ∧ ¬ (t.err = false ∧ t.ecode = .none) :=
  ⟨⟨_, rfl, by decide⟩, ⟨_, rfl, by decide⟩, _, rfl, by decide⟩

theorem witness_PhaseWriters :
    (∃ t, step (busyWith .init [.reset]) = .next t ∧ t.phase ≠ (busyWith .init [.reset]).phase)
    ∧ (∃ t, step (busyWith .init []) = .next t ∧ t.phase ≠ (busyWith .init []).phase)
    ∧ (∃ t, step (busyWith .init [.engine]) = .next t ∧ t.phase ≠ (busyWith .init [.engine]).phase)
    ∧ ∃ t, step (idleWith [wr32 Params.default 0x000 0x15]) = .next t ∧ t.phase ≠ .idle :=
  ⟨⟨_, rfl, by decide⟩, ⟨_, rfl, by decide⟩, ⟨_, rfl, by decide⟩, _, rfl, by decide⟩

theorem witness_ResultsDoNotDependOnLatency :
    let s := busyWith .init [wr32 Params.default 0x008 1, .engine]
    s.phase ≠ .idle ∧ s.sched = wr32 Params.default 0x008 1 :: .engine :: []
    ∧ ∃ addr n v, wr32 Params.default 0x008 1 = .write addr n v :=
  ⟨by decide, rfl, _, _, _, rfl⟩

theorem witness_EngineWrites :
    State.reset.params.Legal ∧ (busyWith .init []).sched = [] ∧ (∃ t, step (busyWith .init []) = .next t)
    ∧ (busyWith .init [.engine]).sched = [.engine] ∧ ∃ t, step (busyWith .init [.engine]) = .next t :=
  ⟨by decide, rfl, ⟨_, rfl⟩, rfl, _, rfl⟩

theorem witness_BusyHost :
    (busyWith .digest [rd32 Params.default 0x020]).phase ≠ .idle
    ∧ (∃ t, step (busyWith .digest [rd32 Params.default 0x020]) = .next t)
    ∧ ∃ t, step (busyWith .digest [wr32 Params.default 0x008 1]) = .next t :=
  ⟨by decide, ⟨_, rfl⟩, _, rfl⟩

theorem witness_StepKeepsTheInvariant : Inv State.reset ∧ ∃ t, step State.reset = .next t := by
  refine ⟨⟨by decide, by decide, ?_, by decide, by decide, by decide, by decide, ?_⟩, _, rfl⟩
  · intro c hc; cases hc
  · intro c hc; cases hc

theorem witness_InternalsAreNeverObservable :
    let t : State := { State.reset with work := { a := 1, b := 2, c := 3, d := 4 }, fval := 5 }
    SameOutside State.reset t ∧ State.reset ≠ t := ⟨rfl, by decide⟩

theorem witness_BusyReadsRevealNothing :
    let s := busyWith .digest [rd32 Params.default 0x020]
    let t : State := { s with chain := { a := 1, b := 2, c := 3, d := 4 }, nblk := 9, mem := [(0x04000, 0x55)] }
    s.phase ≠ .idle ∧ SameButEngineState s t ∧ s ≠ t ∧ s.sched = [.read (busAddr s.params 0x020) 4] := by
  refine ⟨by decide, ⟨rfl, rfl, rfl, rfl, rfl, rfl, fun a ha => ?_, rfl, rfl, rfl⟩, by decide, rfl⟩
  have h : (0x04000 : Nat) ≠ a := by rintro rfl; exact ha (by decide)
  simp [State.byteAt, Memory.byte, Memory.read?, h, busyWith, State.reset]

theorem witness_DecodeOfEncode : (Instr.reserved67 7).wf ∧ (Instr.reserved8F 8).wf ∧ (Instr.ii 15).wf ∧ Instr.f.wf := by
  decide

theorem witness_DecodedInstructions :
    decode .step [0x3F] = .ok (.ii 15) ∧ decode .cmd [0xF6, 0xFF, 0xFF, 0xFF] = .ok (.reserved67 6)
    ∧ decode .fsel [0x00] = .ok .f ∧ (0x3F : Byte).toNat < 64 ∧ 64 ≤ (0x40 : Byte).toNat := by decide

theorem witness_LineEnds :
    ¬ ((0x000D : BitVec 16) = 0x000D ∧ ([] : List (BitVec 16)).head? = some 0x000A)
    ∧ (0x000D : BitVec 16) ∉ ([0x61, 0x0A] : List (BitVec 16)) := by decide

end Sys2Proof.Tests
end

section
/-! What every step keeps of the parameters (00_scope.md R6): no operation writes them. -/

namespace Sys2Proof.Machine

theorem memRead_params (off n : Nat) (s : State) : (memRead off n s).params = s.params := by
  rw [memRead_frame]

theorem issueCommand_params (v : Word) (s : State) : (issueCommand v s).params = s.params := by
  rcases issueCommand_cases v s with ⟨c, -, e⟩ | ⟨-, e⟩ <;> simp [e]

theorem writeIdle_params (off n : Nat) (v : Word) (s : State) : (writeIdle off n v s).params = s.params := by
  rcases writeIdle_cases off n v s with ⟨-, e⟩ | ⟨-, e⟩ | ⟨-, e⟩ | ⟨-, e⟩ | ⟨-, -, -, -, e⟩
  · rw [e, issueCommand_params]
  all_goals rw [e]

theorem memWrite_params (off n : Nat) (v : Word) (s : State) : (memWrite off n v s).params = s.params := by
  rcases memWrite_cases off n v s with ⟨-, e⟩ | ⟨-, -, -, e⟩ | ⟨-, e⟩ | ⟨-, -, e⟩ | ⟨-, -, -, -, e⟩
  · rw [e, raiseError_params]
  · rw [e]; split <;> rfl
  · rw [e]
  · rw [e, raiseError_params]
  · rw [e, writeIdle_params]

theorem engineTurn_params {s t : State} (h : engineTurn s = .next t) : t.params = s.params := by
  rcases engineTurn_cases h with ⟨-, rfl⟩ | ⟨c, -, hc⟩
  · rfl
  · exact (exec_instrOf_frame hc).2

theorem step_params {s t : State} (h : step s = .next t) : t.params = s.params := by
  obtain ⟨u, hu, hcases⟩ := step_cases h
  have hup : u.params = s.params := by
    rcases hu with ⟨rfl, -⟩ | ⟨_, _, -, rfl⟩ <;> rfl
  rw [← hup]
  rcases hcases with ⟨-, hturn⟩ | ⟨_, _, _, -, rfl⟩ | ⟨_, _, _, _, -, rfl⟩ | ⟨_, -, rfl⟩ | ⟨_, _, -, rfl⟩ | ⟨_, _, -, rfl⟩
  · exact engineTurn_params hturn
  · exact memRead_params ..
  · exact memWrite_params ..
  · rfl
  · rfl
  · rfl

end Sys2Proof.Machine

/-- Settles O43, by the inversion of a step: each kind of event leaves the parameters. -/
theorem parametersNeverChange : Obligations.ParametersNeverChange := by
  unfold Obligations.ParametersNeverChange
  exact fun _ _ h => Sys2Proof.Machine.step_params h
end

section
/-! The invariant under each operation of the machine: first the shared operations, then the bodies of the commands, the
host's accesses, and the step. -/

namespace Sys2Proof.Safety

open Sys2Proof.Machine

/-! ### Shared operations -/

/-- The invariant does not speak of the internals, LEN, or the model's own fields: any of them may change. -/
theorem inv_untracked {s : State} (h : Inv s) (work : Regs) (X : Vector Word 16) (step : BitVec 6) (len fval : Word)
    (epoch draws : Nat) (readLog : List Word) (sched : List Event) :
    Inv { s with
      work := work, X := X, step := step, len := len, fval := fval, epoch := epoch, draws := draws
      readLog := readLog, sched := sched } :=
  ⟨h.params, h.memory, h.cells, h.nblk, h.blkidx, h.ecode, h.digest, h.busy⟩

/-- Recording an error keeps ERR and ECODE in step (R39): the recorded code is a real one, as the old one was. -/
theorem inv_raiseError {s : State} {code : ErrCode} (h : Inv s) (hcode : code ≠ .none) : Inv (raiseError code s) := by
  have hreal : (if s.err then s.ecode else code) ≠ .none := by
    split
    · next herr => exact fun hnone => by simp [h.ecode.2 hnone] at herr
    · exact hcode
  rw [raiseError_eq]
  exact ⟨h.params, h.memory, h.cells, h.nblk, h.blkidx, ⟨nofun, fun hnone => absurd hnone hreal⟩, h.digest, h.busy⟩

theorem inv_clearError {s : State} (h : Inv s) : Inv (clearError s) :=
  ⟨h.params, h.memory, h.cells, h.nblk, h.blkidx, ⟨fun _ => rfl, fun _ => rfl⟩, h.digest, h.busy⟩

theorem doneAfterAccept_of_ne_nop {c : Command} (hne : c ≠ .nop) (done : Bool) : doneAfterAccept c done = false := by
  cases c with
  | nop => exact absurd rfl hne
  | init | pack | compress | fold | digest => rfl

/-- Acceptance never sets DONE, and clears it for every command but NOP (R190). -/
theorem inv_accept {s : State} (h : Inv s) (c : Command) : Inv (accept c s) := by
  refine ⟨h.params, h.memory, h.cells, h.nblk, h.blkidx, h.ecode, fun hdone => h.digest ?_, fun c' hc' hne => ?_⟩
  · by_cases hnop : c = .nop
    · subst hnop; exact hdone
    · simp [doneAfterAccept_of_ne_nop hnop] at hdone
  · cases hc'
    exact doneAfterAccept_of_ne_nop hne _

/-- In phase IDLE no command runs, so the last clause asks nothing. -/
theorem inv_complete {s : State} (h : Inv s) : Inv (complete s) :=
  ⟨h.params, h.memory, h.cells, h.nblk, h.blkidx, h.ecode, h.digest, nofun⟩

theorem inv_resetEngine {s : State} (h : Inv s) : Inv (resetEngine s) where
  params := h.params
  memory := List.Pairwise.nil
  cells  := nofun
  nblk   := Nat.zero_le _
  blkidx := Nat.zero_le _
  ecode  := ⟨fun _ => rfl, fun _ => rfl⟩
  digest := nofun
  busy   := nofun

/-! ### The bodies of the commands -/

/-- A to D may change where DONE is 0: HEX is not claimed to be their fold. -/
theorem inv_loadIv {s : State} (h : Inv s) (hdone : s.done = false) : Inv (loadIv s) :=
  ⟨h.params, h.memory, h.cells, h.nblk, Nat.zero_le _, h.ecode, by simp [hdone], h.busy⟩

/-- `pack` writes the word array of a message that fits, which lies in the populated WMEM (R51, R116). -/
theorem inv_packMessage {s : State} (h : Inv s) (hfits : Fits s) : Inv (packMessage s) := by
  obtain ⟨-, hblocks⟩ := hfits
  refine ⟨h.params, wf_packMemory _ _ h.memory, fun c hc => ?_, ?_, Nat.zero_le _, h.ecode, h.digest, h.busy⟩
  · rcases mem_packMemory hc with ⟨hlow, hhigh⟩ | hold
    · exact .inl ⟨hlow, show c.1 < 0x04000 + 64 * s.params.wmemBlocks by omega⟩
    · exact h.cells c hold
  · rw [packMessage_nblk, BitVec.toNat_ofNat]
    exact (Nat.mod_le _ _).trans hblocks

/-- BLKIDX moves on only below NBLK, so it stays within WMEM_BLOCKS. -/
theorem inv_compressNext {s : State} (h : Inv s) (hdone : s.done = false) (hlt : s.blkidx < s.nblk) :
    Inv (compressNext s) := by
  refine ⟨h.params, h.memory, h.cells, h.nblk, ?_, h.ecode, by simp [hdone], h.busy⟩
  have hnblk := h.nblk
  rw [BitVec.lt_def] at hlt
  calc (s.blkidx + 1).toNat
    _ ≤ s.blkidx.toNat + 1 := by rw [BitVec.toNat_add]; exact Nat.mod_le _ _
    _ ≤ s.params.wmemBlocks := by omega

/-- Every round of DIGEST's loop is a block compression below NBLK. -/
theorem inv_compressAll (fuel : Nat) {s : State} (h : Inv s) (hdone : s.done = false) : Inv (compressAll fuel s) := by
  induction fuel generalizing s with
  | zero => exact h
  | succ n ih =>
    rw [compressAll]
    split
    · next hlt => exact ih (inv_compressNext h hdone hlt) hdone
    · exact h

/-- FOLD sets DONE and makes HEX the fold of A to D, in one step with its completion (R37). -/
theorem inv_complete_foldDigest {s : State} (h : Inv s) : Inv (complete (foldDigest s)) :=
  ⟨h.params, h.memory, h.cells, h.nblk, h.blkidx, h.ecode, fun _ => rfl, nofun⟩

/-- DIGEST is INIT, PACK, the block loop and FOLD (R197); DONE is 0 until the FOLD. -/
theorem inv_complete_digestMessage {s : State} (h : Inv s) (hdone : s.done = false) (hfits : Fits s) :
    Inv (complete (digestMessage s)) :=
  have hpack : Inv (packMessage (loadIv s)) := inv_packMessage (inv_loadIv h hdone) hfits
  inv_complete_foldDigest (inv_compressAll _ hpack hdone)

theorem lengthError_ne_none {s : State} {code : ErrCode} (h : lengthError s = some code) : code ≠ .none := by
  unfold lengthError at h
  split_ifs at h <;> cases h <;> decide

/-- The completion of the command that runs: its body keeps the invariant, as DONE is 0 while a command that writes A to D
runs (R190). -/
theorem inv_execCommand {c : Command} {s t : State} (h : Inv s) (hphase : s.phase = .exec c)
    (hexec : exec (instrOf c) s = .next t) : Inv t := by
  have hdone (hne : c ≠ .nop) : s.done = false := h.busy c hphase hne
  obtain ⟨u, hu, hcases⟩ := exec_instrOf c s
  cases hexec.symm.trans hu
  rcases hcases with ⟨-, rfl⟩ | ⟨rfl, rfl⟩ | ⟨-, hfits, rfl⟩ | ⟨rfl, hlt, rfl⟩ | ⟨-, rfl⟩ | ⟨rfl, hfits, rfl⟩ |
    ⟨-, -, code, hcode, rfl⟩ | ⟨-, -, rfl⟩
  · exact inv_complete h
  · exact inv_complete (inv_loadIv h (hdone nofun))
  · exact inv_complete (inv_packMessage h hfits)
  · exact inv_complete (inv_compressNext h (hdone nofun) hlt)
  · exact inv_complete_foldDigest h
  · exact inv_complete_digestMessage h (hdone nofun) hfits
  · exact inv_complete (inv_raiseError h (lengthError_ne_none hcode))
  · exact inv_complete (inv_raiseError h nofun)

theorem inv_engineTurn {s t : State} (h : Inv s) (hturn : engineTurn s = .next t) : Inv t := by
  rcases engineTurn_cases hturn with ⟨-, rfl⟩ | ⟨c, hphase, hexec⟩
  · exact h
  · exact inv_execCommand h hphase hexec

/-! ### The host's accesses -/

theorem inv_memRead {s : State} (h : Inv s) (off n : Nat) : Inv (memRead off n s) := by
  rcases memRead_cases off n s with ⟨-, v, e⟩ | ⟨-, -, e⟩ | ⟨-, e⟩
  · rw [e]; exact inv_untracked h ..
  · rw [e]; exact inv_untracked h ..
  · have hraise : Inv (raiseError .busAccess s) := inv_raiseError h nofun
    rw [e]; exact inv_untracked hraise ..

/-- The WARL rule keeps an index within WMEM_BLOCKS (R30, R31). -/
theorem warlIndex_le (p : Params) (v : Word) : (warlIndex p v).toNat ≤ p.wmemBlocks := by
  rw [warlIndex, BitVec.toNat_ofNat]
  exact (Nat.mod_le _ _).trans (Nat.min_le_right _ _)

/-- A legal access at or above WMEM's first offset touches populated offsets only (R51, R55). -/
theorem populated_of_legal {p : Params} {off n a : Nat} (hl : legal p off n) (hoff : 0x04000 ≤ off) (hlow : off ≤ a)
    (hhigh : a < off + n) : populated p a := by
  rcases hl with ⟨hreg, -⟩ | ⟨-, hend, -⟩ | ⟨hstart, hend, -⟩
  · omega
  · exact .inl ⟨by omega, by omega⟩
  · exact .inr ⟨by omega, by omega⟩

theorem inv_issueCommand {s : State} (h : Inv s) (v : Word) : Inv (issueCommand v s) := by
  rcases issueCommand_cases v s with ⟨c, -, e⟩ | ⟨-, e⟩
  · rw [e]; exact inv_accept h c
  · rw [e]; exact inv_raiseError h nofun

theorem inv_store {s : State} (h : Inv s) {off n : Nat} (v : Word) (hl : legal s.params off n) (hoff : 0x04000 ≤ off) :
    Inv { s with mem := Memory.store s.mem off n v } := by
  refine ⟨h.params, wf_store _ _ _ h.memory, fun c hc => ?_, h.nblk, h.blkidx, h.ecode, h.digest, h.busy⟩
  rcases mem_store hc with ⟨hlow, hhigh⟩ | hold
  · exact populated_of_legal hl hoff hlow hhigh
  · exact h.cells c hold

/-- A write that is performed: a register, or bytes of a memory. -/
theorem inv_writeIdle {s : State} (h : Inv s) {off n : Nat} (v : Word) (hl : legal s.params off n)
    (hoff : off = 0x000 ∨ off = 0x008 ∨ off = 0x00C ∨ off = 0x010 ∨ 0x04000 ≤ off) : Inv (writeIdle off n v s) := by
  rcases writeIdle_cases off n v s with ⟨-, e⟩ | ⟨-, e⟩ | ⟨-, e⟩ | ⟨-, e⟩ | ⟨h0, h8, hC, h10, e⟩
  · rw [e]; exact inv_issueCommand h v
  · rw [e]; exact inv_untracked h ..
  · rw [e]; exact ⟨h.params, h.memory, h.cells, warlIndex_le _ v, h.blkidx, h.ecode, h.digest, h.busy⟩
  · rw [e]; exact ⟨h.params, h.memory, h.cells, h.nblk, warlIndex_le _ v, h.ecode, h.digest, h.busy⟩
  · rw [e]; exact inv_store h v hl (by omega)

theorem inv_memWrite {s : State} (h : Inv s) (off n : Nat) (v : Word) : Inv (memWrite off n v s) := by
  rcases memWrite_cases off n v s with ⟨-, e⟩ | ⟨-, -, -, e⟩ | ⟨-, e⟩ | ⟨-, -, e⟩ | ⟨hl, -, -, hoff, e⟩
  · rw [e]; exact inv_raiseError h nofun
  · rw [e]
    split
    · exact inv_clearError h
    · exact h
  · rw [e]; exact h
  · rw [e]; exact inv_raiseError h nofun
  · rw [e]; exact inv_writeIdle h v hl hoff

/-! ### The step -/

theorem step_keeps_inv {s t : State} (h : Inv s) (hstep : step s = .next t) : Inv t := by
  obtain ⟨u, hu, hcases⟩ := step_cases hstep
  have hinv : Inv u := by
    rcases hu with ⟨rfl, -⟩ | ⟨_, _, -, rfl⟩
    · exact h
    · exact inv_untracked h ..
  rcases hcases with ⟨-, hturn⟩ | ⟨_, _, _, -, rfl⟩ | ⟨_, _, _, _, -, rfl⟩ | ⟨_, -, rfl⟩ | ⟨_, _, -, rfl⟩ | ⟨_, _, -, rfl⟩
  · exact inv_engineTurn hinv hturn
  · exact inv_memRead hinv ..
  · exact inv_memWrite hinv ..
  · exact inv_resetEngine hinv
  · exact inv_untracked hinv ..
  · exact inv_untracked hinv ..

end Sys2Proof.Safety

/-- Settles O53, by the inversion of a step: the engine's turn, each host access, reset and the internal words keep the
invariant. -/
theorem stepKeepsTheInvariant : Obligations.StepKeepsTheInvariant := by
  unfold Obligations.StepKeepsTheInvariant
  exact fun _ _ h hstep => Sys2Proof.Safety.step_keeps_inv h hstep
end

section
/-! Who writes the phase, DONE, A to D and HEX: an inversion of the step that says it once for the four of them
(10_state.md R21, R25, R33, R37). -/

namespace Sys2Proof.Machine

/-- The state an event meets: the schedule without its head. -/
def popEvent (s : State) : State := { s with sched := s.sched.tail }

@[simp] theorem popEvent_phase (s : State) : (popEvent s).phase = s.phase := rfl

theorem step_eq_perform_popEvent {s : State} {e : Event} {rest : List Event} (h : s.sched = e :: rest) :
    step s = perform e (popEvent s) := by
  rw [step_of_event h, popEvent, h, List.tail_cons]

/-- The engine has the turn: it is scheduled next, or nothing is. -/
abbrev EngineNext (s : State) : Prop := s.sched = [] ∨ ∃ rest, s.sched = .engine :: rest

/-- The inversion of a step (`step_cases`) with the state the event meets written out. -/
theorem step_cases_popEvent {s t : State} (h : step s = .next t) :
    (EngineNext s ∧ engineTurn (popEvent s) = .next t)
    ∨ (∃ addr n rest, s.sched = .read addr n :: rest ∧ t = memRead (busOffset s.params addr) n (popEvent s))
    ∨ (∃ addr n v rest, s.sched = .write addr n v :: rest ∧ t = memWrite (busOffset s.params addr) n v (popEvent s))
    ∨ (∃ rest, s.sched = .reset :: rest ∧ t = resetEngine (popEvent s))
    ∨ (∃ i, t = stepDispatch i (popEvent s))
    ∨ (∃ sel, t = roundOp (roundFn sel) (popEvent s)) := by
  obtain ⟨u, hu, hcases⟩ := step_cases h
  have hpop : u = popEvent s := by
    rcases hu with ⟨rfl, hnil⟩ | ⟨_, _, hcons, rfl⟩
    · rw [popEvent, hnil, List.tail_nil, ← hnil]
    · rw [popEvent, hcons, List.tail_cons]
  subst hpop
  rcases hcases with hturn | hread | hwrite | hreset | ⟨i, _, -, ht⟩ | ⟨sel, _, -, ht⟩
  · exact .inl hturn
  · exact .inr (.inl hread)
  · exact .inr (.inr (.inl hwrite))
  · exact .inr (.inr (.inr (.inl hreset)))
  · exact .inr (.inr (.inr (.inr (.inl ⟨i, ht⟩))))
  · exact .inr (.inr (.inr (.inr (.inr ⟨sel, ht⟩))))

/-- Two states with the same phase, DONE, A to D and HEX. -/
structure SameProgress (s t : State) : Prop where
  phase : t.phase = s.phase
  done  : t.done = s.done
  chain : t.chain = s.chain
  hex   : t.hex = s.hex

theorem sameProgress_raiseError (code : ErrCode) (s : State) : SameProgress s (raiseError code s) :=
  ⟨raiseError_phase .., raiseError_done .., raiseError_chain .., raiseError_hex ..⟩

theorem sameProgress_memRead (off n : Nat) (s : State) : SameProgress s (memRead off n s) := by
  rw [memRead_frame]
  exact ⟨rfl, rfl, rfl, rfl⟩

theorem sameProgress_issueCommand {v : Word} {s : State} (h : commandOf (decodeCmd v) = none) :
    SameProgress s (issueCommand v s) := by
  rw [issueCommand, h]
  exact sameProgress_raiseError ..

/-- A host write accepts the command of a CMD write in phase IDLE, or leaves the phase, DONE, A to D and HEX. -/
theorem memWrite_accepts_or_sameProgress (off n : Nat) (v : Word) (s : State) :
    (off = 0x000 ∧ n = 4 ∧ s.phase = .idle ∧ ∃ c, commandOf (decodeCmd v) = some c ∧ memWrite off n v s = accept c s)
    ∨ SameProgress s (memWrite off n v s) := by
  rcases memWrite_cases off n v s with ⟨-, e⟩ | ⟨-, -, -, e⟩ | ⟨-, e⟩ | ⟨-, -, e⟩ | ⟨hl, hidle, -, -, e⟩ <;> rw [e]
  · exact .inr (sameProgress_raiseError ..)
  · split <;> exact .inr ⟨rfl, rfl, rfl, rfl⟩
  · exact .inr ⟨rfl, rfl, rfl, rfl⟩
  · exact .inr (sameProgress_raiseError ..)
  · rcases writeIdle_cases off n v s with ⟨hoff, e⟩ | ⟨-, e⟩ | ⟨-, e⟩ | ⟨-, e⟩ | ⟨-, -, -, -, e⟩ <;> rw [e]
    · rcases issueCommand_cases v s with haccept | ⟨hnone, -⟩
      · exact .inl ⟨hoff, by unfold legal at hl; omega, hidle, haccept⟩
      · exact .inr (sameProgress_issueCommand hnone)
    all_goals exact .inr ⟨rfl, rfl, rfl, rfl⟩

/-- Everything that writes the phase, DONE, A to D or HEX: reset, the completion of a command, and the acceptance of one
in phase IDLE; every other step leaves the four. -/
theorem step_progress_cases {s t : State} (h : step s = .next t) :
    ((∃ rest, s.sched = .reset :: rest) ∧ t = resetEngine (popEvent s))
    ∨ (EngineNext s ∧ ∃ c, s.phase = .exec c ∧ exec (instrOf c) (popEvent s) = .next t)
    ∨ (∃ addr v rest c, s.sched = .write addr 4 v :: rest ∧ busOffset s.params addr = 0x000 ∧ s.phase = .idle
        ∧ commandOf (decodeCmd v) = some c ∧ t = accept c (popEvent s))
    ∨ SameProgress s t := by
  rcases step_cases_popEvent h with ⟨hnext, hturn⟩ | ⟨addr, n, _, -, rfl⟩ | ⟨addr, n, v, rest, hw, rfl⟩ |
    ⟨rest, hreset, ht⟩ | ⟨_, rfl⟩ | ⟨_, rfl⟩
  · rcases engineTurn_cases hturn with ⟨-, rfl⟩ | hexec
    · exact .inr (.inr (.inr ⟨rfl, rfl, rfl, rfl⟩))
    · exact .inr (.inl ⟨hnext, hexec⟩)
  · obtain ⟨hphase, hdone, hchain, hhex⟩ := sameProgress_memRead (busOffset s.params addr) n (popEvent s)
    exact .inr (.inr (.inr ⟨hphase, hdone, hchain, hhex⟩))
  · rcases memWrite_accepts_or_sameProgress (busOffset s.params addr) n v (popEvent s) with
      ⟨hoff, rfl, hidle, c, hc, e⟩ | ⟨hphase, hdone, hchain, hhex⟩
    · exact .inr (.inr (.inl ⟨addr, v, rest, c, hw, hoff, hidle, hc, e⟩))
    · exact .inr (.inr (.inr ⟨hphase, hdone, hchain, hhex⟩))
  · exact .inl ⟨⟨rest, hreset⟩, ht⟩
  · exact .inr (.inr (.inr ⟨rfl, rfl, rfl, rfl⟩))
  · exact .inr (.inr (.inr ⟨rfl, rfl, rfl, rfl⟩))

/-! ### What a completion writes -/

/-- Of the bodies, those of INIT, COMPRESS and DIGEST alone write A to D (R193, R195, R197). -/
theorem exec_instrOf_chain {c : Command} {s t : State} (h : exec (instrOf c) s = .next t) :
    t.chain = s.chain ∨ c = .init ∨ c = .compress ∨ c = .digest := by
  obtain ⟨u, hu, hcases⟩ := exec_instrOf c s
  cases h.symm.trans hu
  rcases hcases with ⟨-, rfl⟩ | ⟨hc, -⟩ | ⟨-, -, rfl⟩ | ⟨hc, -⟩ | ⟨-, rfl⟩ | ⟨hc, -⟩ | ⟨-, -, code, -, rfl⟩ | ⟨hc, -⟩
  · exact .inl rfl
  · exact .inr (.inl hc)
  · exact .inl rfl
  · exact .inr (.inr (.inl hc))
  · exact .inl rfl
  · exact .inr (.inr (.inr hc))
  · exact .inl (raiseError_chain code s)
  · exact .inr (.inr (.inl hc))

/-- Of the bodies, those of FOLD and DIGEST alone write HEX (R196, R197). -/
theorem exec_instrOf_hex {c : Command} {s t : State} (h : exec (instrOf c) s = .next t) :
    t.hex = s.hex ∨ c = .fold ∨ c = .digest := by
  obtain ⟨u, hu, hcases⟩ := exec_instrOf c s
  cases h.symm.trans hu
  rcases hcases with ⟨-, rfl⟩ | ⟨-, rfl⟩ | ⟨-, -, rfl⟩ | ⟨-, -, rfl⟩ | ⟨hc, -⟩ | ⟨hc, -⟩ |
    ⟨-, -, code, -, rfl⟩ | ⟨-, -, rfl⟩
  · exact .inl rfl
  · exact .inl rfl
  · exact .inl rfl
  · exact .inl rfl
  · exact .inr (.inl hc)
  · exact .inr (.inr hc)
  · exact .inl (raiseError_hex code s)
  · exact .inl (raiseError_hex .noBlock s)

/-- A completion keeps DONE, or sets it: that of FOLD, and of DIGEST with a message that fits (R196, R197). -/
theorem exec_instrOf_done {c : Command} {s t : State} (h : exec (instrOf c) s = .next t) :
    t.done = s.done ∨ (t.done = true ∧ (c = .fold ∨ (c = .digest ∧ Safety.Fits s))) := by
  obtain ⟨u, hu, hcases⟩ := exec_instrOf c s
  cases h.symm.trans hu
  rcases hcases with ⟨-, rfl⟩ | ⟨-, rfl⟩ | ⟨-, -, rfl⟩ | ⟨-, -, rfl⟩ | ⟨hc, rfl⟩ | ⟨hc, hfits, rfl⟩ |
    ⟨-, -, code, -, rfl⟩ | ⟨-, -, rfl⟩
  · exact .inl rfl
  · exact .inl rfl
  · exact .inl rfl
  · exact .inl rfl
  · exact .inr ⟨rfl, .inl hc⟩
  · exact .inr ⟨rfl, .inr ⟨hc, hfits⟩⟩
  · exact .inl (raiseError_done code s)
  · exact .inl (raiseError_done .noBlock s)

/-- The command that a CMD write's bits [3:0] are the code of (30_encoding.md R80, R86). -/
theorem opCode_of_commandOf_decodeCmd {v : Word} {c : Command} (h : commandOf (decodeCmd v) = some c) :
    v &&& 0xF = opCode c := by
  have hop : ∀ op : BitVec 4, commandOf (decodeOp op) = some c → op.setWidth 32 = opCode c := by
    cases c <;> decide
  have hmask : v &&& 0xF = (v.extractLsb' 0 4).setWidth 32 := by
    refine BitVec.eq_of_toNat_eq ?_
    have hmod : v.toNat &&& 15 = v.toNat % 16 := Nat.and_two_pow_sub_one_eq_mod v.toNat 4
    have hlow : ((v.extractLsb' 0 4).setWidth 32).toNat = v.toNat % 16 := by
      rw [BitVec.toNat_setWidth, BitVec.extractLsb'_toNat, Nat.shiftRight_zero]
      omega
    exact hmod.trans hlow.symm
  rw [hmask]
  exact hop _ h

end Sys2Proof.Machine

open Sys2Proof.Machine

/-- Settles O44: of the writers of a step, reset and the three commands alone reach A to D. -/
theorem chainingRegistersWriters : Obligations.ChainingRegistersWriters := by
  unfold Obligations.ChainingRegistersWriters
  intro s t hstep hne
  rcases step_progress_cases hstep with ⟨hreset, -⟩ | ⟨hnext, c, hphase, hexec⟩ |
    ⟨_, _, _, _, -, -, -, -, rfl⟩ | hsame
  · exact .inl hreset
  · rcases exec_instrOf_chain hexec with hkeep | hc
    · exact absurd hkeep hne
    · exact .inr ⟨hnext, by simpa [hphase] using hc⟩
  · exact absurd rfl hne
  · exact absurd hsame.chain hne

/-- Settles O45: of the writers of a step, reset, FOLD and DIGEST alone reach HEX. -/
theorem hexWriters : Obligations.HexWriters := by
  unfold Obligations.HexWriters
  intro s t hstep hne
  rcases step_progress_cases hstep with ⟨hreset, -⟩ | ⟨hnext, c, hphase, hexec⟩ |
    ⟨_, _, _, _, -, -, -, -, rfl⟩ | hsame
  · exact .inl hreset
  · rcases exec_instrOf_hex hexec with hkeep | hc
    · exact absurd hkeep hne
    · exact .inr ⟨hnext, by simpa [hphase] using hc⟩
  · exact absurd rfl hne
  · exact absurd hsame.hex hne

/-- Settles O46: a completion only sets DONE, that of FOLD and of a DIGEST that fits; an acceptance only clears it, that
of every command but NOP. -/
theorem doneWriters : Obligations.DoneWriters := by
  unfold Obligations.DoneWriters
  intro s t hstep
  by_cases hkeep : t.done = s.done
  · rw [hkeep]
    exact ⟨fun hclear hset => by simp [hclear] at hset, fun hset hclear => by simp [hset] at hclear⟩
  rcases step_progress_cases hstep with ⟨hreset, rfl⟩ | ⟨hnext, c, hphase, hexec⟩ |
    ⟨addr, v, rest, c, hw, hoff, hidle, -, rfl⟩ | hsame
  · exact ⟨nofun, fun _ _ => .inl hreset⟩
  · obtain ⟨hset, hc⟩ := (exec_instrOf_done hexec).resolve_left hkeep
    refine ⟨fun _ _ => ⟨hnext, ?_⟩, fun _ hclear => by simp [hset] at hclear⟩
    rw [hphase]
    exact hc.imp (congrArg _) (And.imp_left (congrArg _))
  · have hne : c ≠ .nop := by
      rintro rfl
      exact hkeep rfl
    have hclear : (accept c (popEvent s)).done = false :=
      Sys2Proof.Safety.doneAfterAccept_of_ne_nop hne _
    exact ⟨fun _ hset => absurd (hclear.symm.trans hset) nofun,
      fun _ _ => .inr ⟨addr, v, rest, c, hw, hoff, hidle, rfl, hne⟩⟩
  · exact absurd hsame.done hkeep

/-- Settles O50: a completion leaves the phase IDLE, and an acceptance is that of the command whose code was written. -/
theorem phaseWriters : Obligations.PhaseWriters := by
  unfold Obligations.PhaseWriters
  intro s t hstep hne
  rcases step_progress_cases hstep with ⟨hreset, -⟩ | ⟨hnext, c, -, hexec⟩ |
    ⟨addr, v, rest, c, hw, hoff, hidle, hc, rfl⟩ | hsame
  · exact .inl hreset
  · exact .inr (.inl ⟨hnext, (exec_instrOf_frame hexec).1⟩)
  · exact .inr (.inr ⟨addr, v, rest, c, hw, hoff, hidle, opCode_of_commandOf_decodeCmd hc, rfl⟩)
  · exact absurd hsame.phase hne

end

section
/-! Who writes the error record (10_state.md R39): every operation of the machine keeps it or records the first error,
but for a STATUS write with bit 2 = 1 and reset. -/

namespace Sys2Proof.Machine

/-- ERR and ECODE stay, or an error is recorded where none was. -/
def KeepsOrRecords (s t : State) : Prop :=
  (t.err = s.err ∧ t.ecode = s.ecode) ∨ (s.err = false ∧ t.err = true ∧ t.ecode ≠ .none)

theorem keepsOrRecords_raiseError (code : ErrCode) (s : State) (hcode : code ≠ .none) :
    KeepsOrRecords s (raiseError code s) := by
  cases herr : s.err with
  | true => exact .inl (by simp [herr])
  | false => exact .inr ⟨herr, raiseError_err .., by simpa [herr] using hcode⟩

theorem keepsOrRecords_memRead (off n : Nat) (s : State) : KeepsOrRecords s (memRead off n s) := by
  rcases memRead_cases off n s with ⟨-, v, e⟩ | ⟨-, -, e⟩ | ⟨-, e⟩ <;> rw [e]
  · exact .inl ⟨rfl, rfl⟩
  · exact .inl ⟨rfl, rfl⟩
  · exact keepsOrRecords_raiseError .busAccess s nofun

theorem keepsOrRecords_writeIdle (off n : Nat) (v : Word) (s : State) : KeepsOrRecords s (writeIdle off n v s) := by
  rcases writeIdle_cases off n v s with ⟨-, e⟩ | ⟨-, e⟩ | ⟨-, e⟩ | ⟨-, e⟩ | ⟨-, -, -, -, e⟩ <;> rw [e]
  · rcases issueCommand_cases v s with ⟨c, -, e⟩ | ⟨-, e⟩ <;> rw [e]
    · exact .inl ⟨rfl, rfl⟩
    · exact keepsOrRecords_raiseError .illegalCmd s nofun
  all_goals exact .inl ⟨rfl, rfl⟩

/-- A host write other than a STATUS write with bit 2 = 1 keeps the record or records an error. -/
theorem memWrite_clears_or_keepsOrRecords (off n : Nat) (v : Word) (s : State) :
    (off = 0x004 ∧ n = 4 ∧ v.getLsbD 2 = true) ∨ KeepsOrRecords s (memWrite off n v s) := by
  rcases memWrite_cases off n v s with ⟨-, e⟩ | ⟨-, hoff, hn, e⟩ | ⟨-, e⟩ | ⟨-, -, e⟩ | ⟨-, -, -, -, e⟩ <;> rw [e]
  · exact .inr (keepsOrRecords_raiseError .busAccess s nofun)
  · split
    · next hbit => exact .inl ⟨hoff, hn, hbit⟩
    · exact .inr (.inl ⟨rfl, rfl⟩)
  · exact .inr (.inl ⟨rfl, rfl⟩)
  · exact .inr (keepsOrRecords_raiseError .busyWrite s nofun)
  · exact .inr (keepsOrRecords_writeIdle ..)

theorem keepsOrRecords_exec_instrOf {c : Command} {s t : State} (h : exec (instrOf c) s = .next t) :
    KeepsOrRecords s t := by
  obtain ⟨u, hu, hcases⟩ := exec_instrOf c s
  cases h.symm.trans hu
  rcases hcases with ⟨-, rfl⟩ | ⟨-, rfl⟩ | ⟨-, -, rfl⟩ | ⟨-, -, rfl⟩ | ⟨-, rfl⟩ | ⟨-, -, rfl⟩ |
    ⟨-, -, code, hcode, rfl⟩ | ⟨-, -, rfl⟩
  · exact .inl ⟨rfl, rfl⟩
  · exact .inl ⟨rfl, rfl⟩
  · exact .inl ⟨rfl, rfl⟩
  · exact .inl ⟨rfl, rfl⟩
  · exact .inl ⟨rfl, rfl⟩
  · obtain ⟨-, herr, hecode, -⟩ := digestMessage_frame s
    exact .inl ⟨herr, hecode⟩
  · exact keepsOrRecords_raiseError code s (Safety.lengthError_ne_none hcode)
  · exact keepsOrRecords_raiseError .noBlock s nofun

/-- Everything a step does to the error record (R39). -/
theorem step_error_cases {s t : State} (h : step s = .next t) :
    (∃ rest, s.sched = .reset :: rest)
    ∨ (∃ addr v rest, s.sched = .write addr 4 v :: rest ∧ busOffset s.params addr = 0x004 ∧ v.getLsbD 2 = true)
    ∨ KeepsOrRecords s t := by
  rcases step_cases_popEvent h with ⟨-, hturn⟩ | ⟨addr, n, _, -, rfl⟩ | ⟨addr, n, v, rest, hw, rfl⟩ |
    ⟨rest, hreset, -⟩ | ⟨_, rfl⟩ | ⟨_, rfl⟩
  · rcases engineTurn_cases hturn with ⟨-, rfl⟩ | ⟨c, -, hexec⟩
    · exact .inr (.inr (.inl ⟨rfl, rfl⟩))
    · have hrec : KeepsOrRecords (popEvent s) t := keepsOrRecords_exec_instrOf hexec
      exact .inr (.inr hrec)
  · exact .inr (.inr (keepsOrRecords_memRead (busOffset s.params addr) n (popEvent s)))
  · rcases memWrite_clears_or_keepsOrRecords (busOffset s.params addr) n v (popEvent s) with ⟨hoff, rfl, hbit⟩ | hrec
    · exact .inr (.inl ⟨addr, v, rest, hw, hoff, hbit⟩)
    · exact .inr (.inr hrec)
  · exact .inl ⟨rest, hreset⟩
  · exact .inr (.inr (.inl ⟨rfl, rfl⟩))
  · exact .inr (.inr (.inl ⟨rfl, rfl⟩))

end Sys2Proof.Machine

/-- Settles O47: where the record does not stay, it was clear and an error is recorded, unless reset or a STATUS write
cleared it. -/
theorem errorRecordWriters : Obligations.ErrorRecordWriters := by
  unfold Obligations.ErrorRecordWriters
  intro s t hstep hne
  exact (Sys2Proof.Machine.step_error_cases hstep).imp_right (Or.imp_right (Or.resolve_left · hne))

end

section
/-! STATUS as the bus shows it, and the host's accesses to registers, each in one equation (10_state.md R28 to R34). -/

namespace Sys2Proof.Machine

/-! ### STATUS -/

/-- Bits 31:8 of STATUS are the code of ECODE, and bits 7:3 are 0 (R28, R222). -/
theorem status_bits_from_3 (s : State) :
    s.status.toNat / 2 ^ 8 = s.ecode.code.toNat ∧ s.status.toNat / 2 ^ 3 % 2 ^ 5 = 0 := by
  unfold State.status
  generalize s.busy = busy, s.done = done, s.err = err, s.ecode.code = code
  revert busy done err code
  decide

/-! ### Accesses at an offset -/

theorem step_read {s : State} {off n : Nat} {rest : List Event} (hoff : off < 2 ^ 32)
    (h : s.sched = .read (busAddr s.params off) n :: rest) :
    step s = .next (memRead off n { s with sched := rest }) := by
  rw [step_of_event h, perform, busOffset_busAddr _ hoff]

theorem step_write {s : State} {off n : Nat} {v : Word} {rest : List Event} (hoff : off < 2 ^ 32)
    (h : s.sched = .write (busAddr s.params off) n v :: rest) :
    step s = .next (memWrite off n v { s with sched := rest }) := by
  rw [step_of_event h, perform, busOffset_busAddr _ hoff]

/-- A register slot is read and written as an aligned word (20_memory.md R55). -/
theorem legal_register (p : Params) {off : Nat} (hoff : off ≤ 0x0FC) (halign : off % 4 = 0) : legal p off 4 :=
  .inl ⟨hoff, rfl, halign⟩

/-- A legal write to a writable target other than STATUS is performed in phase IDLE (20_memory.md R63). -/
theorem memWrite_of_idle {off n : Nat} {s : State} (v : Word) (hidle : s.phase = .idle) (hl : legal s.params off n)
    (htarget : off = 0x000 ∨ off = 0x008 ∨ off = 0x00C ∨ off = 0x010 ∨ 0x04000 ≤ off) :
    memWrite off n v s = writeIdle off n v s := by
  rw [memWrite, if_pos hl, if_neg (by omega), if_neg (by omega), if_neg (by simp [hidle])]

/-- A write to a register that the host cannot write does nothing, at any phase (20_memory.md R60, R63). -/
theorem memWrite_readOnly {off : Nat} (v : Word) (s : State) (hoff : off ≤ 0x0FC) (halign : off % 4 = 0)
    (h0 : off ≠ 0x000) (h4 : off ≠ 0x004) (h8 : off ≠ 0x008) (hC : off ≠ 0x00C) (h10 : off ≠ 0x010) :
    memWrite off 4 v s = s := by
  rw [memWrite, if_pos (legal_register _ hoff halign), if_neg h4, if_pos ⟨hoff, h0, h8, hC, h10⟩]

/-- The reserved register offsets (10_state.md R34). -/
abbrev reservedReg (off : Nat) : Prop :=
  (0x014 ≤ off ∧ off ≤ 0x01C) ∨ (0x030 ≤ off ∧ off ≤ 0x03C) ∨ (0x060 ≤ off ∧ off ≤ 0x0FC)

theorem memRead_reserved {off : Nat} (s : State) (hres : reservedReg off) (halign : off % 4 = 0) :
    memRead off 4 s = respond 0 s := by
  have hoff : off ≤ 0x0FC := by omega
  rw [memRead, if_pos (legal_register _ hoff halign), if_pos hoff, readReg, if_neg (by omega), if_neg (by omega),
    if_neg (by omega)]

/-- The WARL rule in numbers: min(v[15:0], WMEM_BLOCKS) (R30, R31). -/
theorem warlIndex_eq (p : Params) (v : Word) :
    warlIndex p v = BitVec.ofNat 16 (min (v.toNat % 2 ^ 16) p.wmemBlocks) := by
  rw [warlIndex, BitVec.extractLsb'_toNat, Nat.shiftRight_zero]

end Sys2Proof.Machine

open Sys2Proof.Machine

/-- Settles O26, field by field. -/
theorem statusWordFields : Obligations.StatusWordFields := by
  unfold Obligations.StatusWordFields
  intro s
  obtain ⟨hdone, herr⟩ := status_bits12 s
  obtain ⟨hcode, hzero⟩ := status_bits_from_3 s
  refine ⟨by rw [status_bit0, busy_eq], hdone, herr, ?_, hzero⟩
  rw [hcode]
  cases s.ecode <;> rfl

/-- Settles O31: in phase IDLE the write of each of the three registers is performed. -/
theorem idleRegisterWrites : Obligations.IdleRegisterWrites := by
  unfold Obligations.IdleRegisterWrites
  intro s v rest hidle
  have hperform {off : Nat} (hoff : off = 0x008 ∨ off = 0x00C ∨ off = 0x010)
      (hw : s.sched = .write (busAddr s.params off) 4 v :: rest) :
      step s = .next (writeIdle off 4 v { s with sched := rest }) := by
    have hl : legal s.params off 4 := legal_register _ (by omega) (by omega)
    rw [step_write (by omega) hw, memWrite_of_idle (s := { s with sched := rest }) v hidle hl (by omega)]
  refine ⟨hperform (.inl rfl), fun hw => ?_, fun hw => ?_⟩
  · rw [hperform (.inr (.inl rfl)) hw, ← warlIndex_eq]
    rfl
  · rw [hperform (.inr (.inr rfl)) hw, ← warlIndex_eq]
    rfl

/-- Settles O33: a reserved offset is no register, neither for reads nor for writes. -/
theorem reservedRegistersReadZero : Obligations.ReservedRegistersReadZero := by
  unfold Obligations.ReservedRegistersReadZero
  intro s off v rest halign hres
  refine ⟨fun hr => ?_, fun hw => ?_⟩
  · rw [step_read (by omega) hr, memRead_reserved _ hres halign]
    rfl
  · rw [step_write (by omega) hw, memWrite_readOnly _ _ (by omega) halign (by omega) (by omega) (by omega) (by omega)
      (by omega)]

end

section
/-! Two runs whose states differ at most in the internals (10_state.md R22 to R24, R40): every operation keeps them so,
as none reads an internal but to write one. -/

namespace Sys2Proof.Safety

open Sys2Proof.Machine

/-- Two outcomes that both go on, to states in a relation. -/
def BothGoOn (R : State → State → Prop) (o p : Host.Outcome State Fault Refusal) : Prop :=
  ∃ s' t', o = .next s' ∧ p = .next t' ∧ R s' t'

theorem bothGoOn_next {R : State → State → Prop} {s t : State} (h : R s t) : BothGoOn R (.next s) (.next t) :=
  ⟨s, t, rfl, rfl, h⟩

/-- States that differ at most in the internals: one is the other with some internals replaced. -/
theorem sameOutside_iff {s t : State} : SameOutside s t ↔ ∃ i, t = withInternalsOf s i := by
  constructor
  · exact fun h => ⟨t, h.symm⟩
  · rintro ⟨i, rfl⟩
    rfl

/-! The fields that decide what an operation does are no internals. -/

@[simp] theorem withInternalsOf_params (s i : State) : (withInternalsOf s i).params = s.params := rfl
@[simp] theorem withInternalsOf_phase (s i : State) : (withInternalsOf s i).phase = s.phase := rfl
theorem withInternalsOf_busy (s i : State) : (withInternalsOf s i).busy = s.busy := rfl
@[simp] theorem withInternalsOf_blkidx (s i : State) : (withInternalsOf s i).blkidx = s.blkidx := rfl
@[simp] theorem withInternalsOf_nblk (s i : State) : (withInternalsOf s i).nblk = s.nblk := rfl
@[simp] theorem withInternalsOf_sched (s i : State) : (withInternalsOf s i).sched = s.sched := rfl
@[simp] theorem lengthError_withInternalsOf (s i : State) : lengthError (withInternalsOf s i) = lengthError s := rfl

theorem sameOutside_compressAll (fuel : Nat) {s t : State} (h : SameOutside s t) :
    SameOutside (compressAll fuel s) (compressAll fuel t) := by
  induction fuel generalizing s t with
  | zero => exact h
  | succ n ih =>
    obtain ⟨i, rfl⟩ := sameOutside_iff.1 h
    rw [compressAll, compressAll, withInternalsOf_blkidx, withInternalsOf_nblk]
    by_cases hlt : s.blkidx < s.nblk
    · -- A block compression starts from A to D and the block in WMEM, whatever the internals held (R145).
      have hnext : SameOutside (compressNext s) (compressNext (withInternalsOf s i)) := rfl
      rw [if_pos hlt, if_pos hlt]
      exact ih hnext
    · rw [if_neg hlt, if_neg hlt]
      exact h

section
variable {s t : State} (h : SameOutside s t)
include h

theorem sameOutside_raiseError (code : ErrCode) : SameOutside (raiseError code s) (raiseError code t) := by
  obtain ⟨i, rfl⟩ := sameOutside_iff.1 h
  rw [raiseError_eq, raiseError_eq]
  rfl

theorem sameOutside_complete : SameOutside (complete s) (complete t) := by
  obtain ⟨i, rfl⟩ := sameOutside_iff.1 h
  rfl

theorem sameOutside_respond (v : Word) : SameOutside (respond v s) (respond v t) := by
  obtain ⟨i, rfl⟩ := sameOutside_iff.1 h
  rfl

/-! ### The engine's turn -/

theorem sameOutside_digestMessage : SameOutside (digestMessage s) (digestMessage t) := by
  obtain ⟨i, rfl⟩ := sameOutside_iff.1 h
  have hpack : SameOutside (packMessage (loadIv s)) (packMessage (loadIv (withInternalsOf s i))) := rfl
  obtain ⟨j, hj⟩ := sameOutside_iff.1 (sameOutside_compressAll (packMessage (loadIv s)).nblk.toNat hpack)
  show SameOutside (foldDigest _) (foldDigest (compressAll (packMessage (loadIv s)).nblk.toNat _))
  rw [hj]
  rfl

/-- A completion: the checks before a body read no internal, and the body keeps the two states together. -/
theorem sameOutside_exec_instrOf (c : Command) : BothGoOn SameOutside (exec (instrOf c) s) (exec (instrOf c) t) := by
  have hraise (code : ErrCode) := sameOutside_complete (sameOutside_raiseError h code)
  have hdigest := sameOutside_complete (sameOutside_digestMessage h)
  obtain ⟨i, rfl⟩ := sameOutside_iff.1 h
  cases c with
  | nop => exact bothGoOn_next rfl
  | init => exact bothGoOn_next rfl
  | pack =>
    show BothGoOn SameOutside (execPack _) (execPack _)
    rw [execPack, execPack, lengthError_withInternalsOf]
    cases lengthError s with
    | none => exact bothGoOn_next rfl
    | some code => exact bothGoOn_next (hraise code)
  | compress =>
    by_cases hlt : s.blkidx < s.nblk
    · exact ⟨_, _, exec_compress_block hlt, exec_compress_block hlt, rfl⟩
    · exact ⟨_, _, exec_compress_none hlt, exec_compress_none hlt, hraise .noBlock⟩
  | fold => exact bothGoOn_next rfl
  | digest =>
    show BothGoOn SameOutside (execDigest _) (execDigest _)
    rw [execDigest, execDigest, lengthError_withInternalsOf]
    cases lengthError s with
    | none => exact bothGoOn_next hdigest
    | some code => exact bothGoOn_next (hraise code)

theorem sameOutside_engineTurn : BothGoOn SameOutside (engineTurn s) (engineTurn t) := by
  obtain ⟨i, rfl⟩ := sameOutside_iff.1 h
  rw [engineTurn, engineTurn, withInternalsOf_phase]
  cases s.phase with
  | idle => exact bothGoOn_next h
  | exec c => exact sameOutside_exec_instrOf h c

/-! ### The host's accesses -/

/-- A read returns the same value in both: no internal is mapped on the bus (R40). -/
theorem sameOutside_memRead (off n : Nat) : SameOutside (memRead off n s) (memRead off n t) := by
  have hraise := sameOutside_respond (sameOutside_raiseError h .busAccess) 0
  obtain ⟨i, rfl⟩ := sameOutside_iff.1 h
  unfold memRead readReg
  rw [withInternalsOf_params, withInternalsOf_busy]
  by_cases hl : legal s.params off n
  · rw [if_pos hl, if_pos hl]
    split_ifs <;> rfl
  · rw [if_neg hl, if_neg hl]
    exact hraise

theorem sameOutside_writeIdle (off n : Nat) (v : Word) : SameOutside (writeIdle off n v s) (writeIdle off n v t) := by
  have hraise := sameOutside_raiseError h .illegalCmd
  obtain ⟨i, rfl⟩ := sameOutside_iff.1 h
  unfold writeIdle issueCommand
  cases commandOf (decodeCmd v) with
  | some c => split_ifs <;> rfl
  | none =>
    split_ifs
    case pos => exact hraise
    all_goals rfl

theorem sameOutside_memWrite (off n : Nat) (v : Word) : SameOutside (memWrite off n v s) (memWrite off n v t) := by
  have hraise (code : ErrCode) := sameOutside_raiseError h code
  have hwrite := sameOutside_writeIdle h off n v
  obtain ⟨i, rfl⟩ := sameOutside_iff.1 h
  unfold memWrite
  rw [withInternalsOf_params, withInternalsOf_busy]
  split_ifs
  · rfl
  · exact h
  · exact h
  · exact hraise .busyWrite
  · exact hwrite
  · exact hraise .busAccess

/-! ### The step -/

theorem sameOutside_perform (e : Event) : BothGoOn SameOutside (perform e s) (perform e t) := by
  obtain ⟨i, rfl⟩ := sameOutside_iff.1 h
  cases e with
  | read addr n => exact bothGoOn_next (sameOutside_memRead h ..)
  | write addr n v => exact bothGoOn_next (sameOutside_memWrite h ..)
  | engine => exact sameOutside_engineTurn h
  | reset => exact bothGoOn_next rfl
  | stepWord j => exact ⟨_, _, exec_decodeStep .., exec_decodeStep .., rfl⟩
  | fselWord sel => exact ⟨_, _, exec_decodeFsel .., exec_decodeFsel .., rfl⟩

theorem sameOutside_step : BothGoOn SameOutside (step s) (step t) := by
  obtain ⟨i, rfl⟩ := sameOutside_iff.1 h
  have hsched := withInternalsOf_sched s i
  cases hs : s.sched with
  | nil =>
    rw [step_of_empty hs, step_of_empty (hsched.trans hs)]
    exact sameOutside_engineTurn h
  | cons e rest =>
    have hpop : SameOutside (popEvent s) (popEvent (withInternalsOf s i)) := rfl
    rw [step_eq_perform_popEvent hs, step_eq_perform_popEvent (hsched.trans hs)]
    exact sameOutside_perform hpop e

end

end Sys2Proof.Safety

/-- Settles O54: the two states meet the same event, and each kind of event keeps them together. -/
theorem internalsAreNeverObservable : Obligations.InternalsAreNeverObservable := by
  unfold Obligations.InternalsAreNeverObservable
  exact fun _ _ h => Sys2Proof.Safety.sameOutside_step h

end

section
/-! Two busy runs whose states differ at most in the state the engine writes (20_memory.md R61): a host access answers
alike in both, as what it reads exactly is not engine-written and what it writes is dropped (R62, R63). -/

namespace Sys2Proof.Safety

open Sys2Proof.Machine

section
variable {s t : State} (h : SameButEngineState s t)
include h

/-! ### What the host reads exactly while BUSY -/

theorem busy_eq_of_sameButEngineState : t.busy = s.busy := by
  rw [busy_eq, busy_eq, h.phase]

theorem status_eq_of_sameButEngineState : s.status = t.status := by
  rw [State.status, State.status, busy_eq_of_sameButEngineState h, h.done, h.err, h.ecode]

/-- A word at or above MSG's first offset lies outside WMEM's window (20_memory.md R51). -/
theorem wordAt_eq_of_sameButEngineState {off : Nat} (hoff : 0x10000 ≤ off) : s.wordAt off = t.wordAt off := by
  have hbyte {a : Nat} (ha : 0x10000 ≤ a) : s.byteAt a = t.byteAt a := h.msg a (by omega)
  show wordOfBytes (s.byteAt off) (s.byteAt (off + 1)) (s.byteAt (off + 2)) (s.byteAt (off + 3)) = _
  rw [hbyte hoff, hbyte (by omega), hbyte (by omega), hbyte (by omega)]
  rfl

/-! ### Shared operations -/

theorem sameButEngineState_raiseError (code : ErrCode) :
    SameButEngineState (raiseError code s) (raiseError code t) := by
  rw [raiseError_eq, raiseError_eq, h.err, h.ecode]
  exact { h with err := rfl, ecode := rfl }

theorem sameButEngineState_clearError : SameButEngineState (clearError s) (clearError t) :=
  { h with err := rfl, ecode := rfl }

theorem sameButEngineState_respond {v w : Word} (hv : v = w) : SameButEngineState (respond v s) (respond w t) :=
  { h with readLog := congrArg₂ List.cons hv h.readLog }

theorem sameButEngineState_respondAny : SameButEngineState (respondAny s) (respondAny t) :=
  { h with
    draws := congrArg (· + 1) h.draws
    readLog := congrArg₂ List.cons (congrArg Config.any32 h.draws) h.readLog }

theorem sameButEngineState_popEvent : SameButEngineState (popEvent s) (popEvent t) :=
  { h with sched := congrArg List.tail h.sched }

/-! ### The host's accesses -/

variable (hbusy : s.busy = true)
include hbusy

theorem sameButEngineState_readReg (off : Nat) : SameButEngineState (readReg off s) (readReg off t) := by
  unfold readReg
  rw [busy_eq_of_sameButEngineState h, if_pos hbusy, if_pos hbusy]
  split_ifs
  · exact sameButEngineState_respond h (status_eq_of_sameButEngineState h)
  · exact sameButEngineState_respond h h.len
  · exact sameButEngineState_respondAny h
  · exact sameButEngineState_respond h rfl

theorem sameButEngineState_memRead (off n : Nat) : SameButEngineState (memRead off n s) (memRead off n t) := by
  unfold memRead
  rw [← h.params, busy_eq_of_sameButEngineState h, if_pos hbusy, if_pos hbusy]
  split_ifs
  · exact sameButEngineState_readReg h hbusy off
  · exact sameButEngineState_respondAny h
  · exact sameButEngineState_respond h (congrArg _ (h.msg off (by omega)))
  · exact sameButEngineState_respond h (wordAt_eq_of_sameButEngineState h (by omega))
  · exact sameButEngineState_respond (sameButEngineState_raiseError h .busAccess) rfl

theorem sameButEngineState_memWrite (off n : Nat) (v : Word) :
    SameButEngineState (memWrite off n v s) (memWrite off n v t) := by
  unfold memWrite
  rw [← h.params, busy_eq_of_sameButEngineState h, if_pos hbusy, if_pos hbusy]
  split_ifs
  · exact sameButEngineState_clearError h
  · exact h
  · exact h
  · exact sameButEngineState_raiseError h .busyWrite
  · exact sameButEngineState_raiseError h .busAccess

theorem sameButEngineState_perform_read (addr : Word) (n : Nat) :
    BothGoOn SameButEngineState (perform (.read addr n) s) (perform (.read addr n) t) := by
  rw [perform, perform, ← h.params]
  exact bothGoOn_next (sameButEngineState_memRead h hbusy ..)

theorem sameButEngineState_perform_write (addr : Word) (n : Nat) (v : Word) :
    BothGoOn SameButEngineState (perform (.write addr n v) s) (perform (.write addr n v) t) := by
  rw [perform, perform, ← h.params]
  exact bothGoOn_next (sameButEngineState_memWrite h hbusy ..)

end

end Sys2Proof.Safety

open Sys2Proof.Machine Sys2Proof.Safety

/-- Settles O55: while BUSY a read answers from what the two states share, and a write reaches the error record only. -/
theorem busyReadsRevealNothing : Obligations.BusyReadsRevealNothing := by
  unfold Obligations.BusyReadsRevealNothing
  intro s t hphase h haccess
  have hbusy : (popEvent s).busy = true := by simp [hphase]
  have hpop : SameButEngineState (popEvent s) (popEvent t) := sameButEngineState_popEvent h
  rcases haccess with ⟨addr, n, rest, hread⟩ | ⟨addr, n, v, rest, hwrite⟩
  · rw [step_eq_perform_popEvent hread, step_eq_perform_popEvent (h.sched.symm.trans hread)]
    exact sameButEngineState_perform_read hpop hbusy addr n
  · rw [step_eq_perform_popEvent hwrite, step_eq_perform_popEvent (h.sched.symm.trans hwrite)]
    exact sameButEngineState_perform_write hpop hbusy addr n v

end

section
/-! The engine's turn and LEN, MSG (20_memory.md R61, R64): of the bodies, those of PACK and DIGEST alone write memory,
and they write the word array of a message that fits, which lies in the populated WMEM. -/

namespace Sys2Proof.Machine

theorem step_of_engineNext {s : State} (h : EngineNext s) : step s = engineTurn (popEvent s) := by
  rcases h with hnil | ⟨rest, hcons⟩
  · rw [step_of_empty hnil, popEvent, hnil, List.tail_nil, ← hnil]
  · rw [step_eq_perform_popEvent hcons, perform]

/-- LEN stays, and every byte outside the populated WMEM reads as before. -/
structure KeepsLenAndMsg (s t : State) : Prop where
  len    : t.len = s.len
  byteAt : ∀ a, ¬ (0x04000 ≤ a ∧ a < 0x04000 + 64 * s.params.wmemBlocks) → t.byteAt a = s.byteAt a

/-- What does not write memory changes no byte of it, as no more than `epoch` and `mem` decide what an offset reads as. -/
theorem keepsLenAndMsg_of_mem_eq {s t : State} (hlen : t.len = s.len) (hepoch : t.epoch = s.epoch)
    (hmem : t.mem = s.mem) : KeepsLenAndMsg s t :=
  ⟨hlen, fun a _ => by rw [State.byteAt, hepoch, hmem, State.byteAt]⟩

theorem keepsLenAndMsg_raiseError (code : ErrCode) (s : State) : KeepsLenAndMsg s (raiseError code s) :=
  keepsLenAndMsg_of_mem_eq (raiseError_len ..) (raiseError_epoch ..) (raiseError_mem ..)

/-- The word array of a message that fits lies in the populated WMEM (R51, R116), below MSG. -/
theorem keepsLenAndMsg_packMessage {s : State} (hp : s.params.Legal) (hfits : Safety.Fits s) :
    KeepsLenAndMsg s (packMessage s) := by
  obtain ⟨-, -, -, hwmem⟩ := hp
  obtain ⟨-, hblocks⟩ := hfits
  refine ⟨rfl, fun a ha => ?_⟩
  rw [State.byteAt, packMessage_epoch, packMessage_mem, byte_packMemory _ _ _ _ (by omega), if_neg (by omega),
    State.byteAt]

/-- Of the memory and LEN, the body of DIGEST leaves what `pack` leaves. -/
theorem digestMessage_len_epoch_mem (s : State) :
    (digestMessage s).len = (packMessage s).len ∧ (digestMessage s).epoch = (packMessage s).epoch
      ∧ (digestMessage s).mem = (packMessage s).mem := by
  have hloop (k : Nat) (u : State) : (compressAll k u).len = u.len ∧ (compressAll k u).epoch = u.epoch
      ∧ (compressAll k u).mem = u.mem := by
    rw [compressAll_frame]
    exact ⟨rfl, rfl, rfl⟩
  exact hloop _ (packMessage (loadIv s))

theorem keepsLenAndMsg_digestMessage {s : State} (hp : s.params.Legal) (hfits : Safety.Fits s) :
    KeepsLenAndMsg s (digestMessage s) := by
  obtain ⟨hlen, hepoch, hmem⟩ := digestMessage_len_epoch_mem s
  have hpack : KeepsLenAndMsg s (packMessage s) := keepsLenAndMsg_packMessage hp hfits
  refine ⟨hlen, fun a ha => ?_⟩
  rw [State.byteAt, hepoch, hmem]
  exact hpack.byteAt a ha

theorem keepsLenAndMsg_exec_instrOf {c : Command} {s t : State} (hp : s.params.Legal)
    (h : exec (instrOf c) s = .next t) : KeepsLenAndMsg s t := by
  obtain ⟨u, hu, hcases⟩ := exec_instrOf c s
  cases h.symm.trans hu
  have hbody : KeepsLenAndMsg s u := by
    rcases hcases with ⟨-, rfl⟩ | ⟨-, rfl⟩ | ⟨-, hfits, rfl⟩ | ⟨-, -, rfl⟩ | ⟨-, rfl⟩ | ⟨-, hfits, rfl⟩ |
      ⟨-, -, code, -, rfl⟩ | ⟨-, -, rfl⟩
    · exact keepsLenAndMsg_of_mem_eq rfl rfl rfl
    · exact keepsLenAndMsg_of_mem_eq rfl rfl rfl
    · exact keepsLenAndMsg_packMessage hp hfits
    · exact keepsLenAndMsg_of_mem_eq rfl rfl rfl
    · exact keepsLenAndMsg_of_mem_eq rfl rfl rfl
    · exact keepsLenAndMsg_digestMessage hp hfits
    · exact keepsLenAndMsg_raiseError code s
    · exact keepsLenAndMsg_raiseError .noBlock s
  exact ⟨hbody.len, hbody.byteAt⟩

theorem keepsLenAndMsg_engineTurn {s t : State} (hp : s.params.Legal) (h : engineTurn s = .next t) :
    KeepsLenAndMsg s t := by
  rcases engineTurn_cases h with ⟨-, rfl⟩ | ⟨c, -, hexec⟩
  · exact keepsLenAndMsg_of_mem_eq rfl rfl rfl
  · exact keepsLenAndMsg_exec_instrOf hp hexec

end Sys2Proof.Machine

open Sys2Proof.Machine

/-- Settles O48: the engine's turn is the completion of a command, which writes memory within the word array alone. -/
theorem engineWritesNeitherLenNorMsg : Obligations.EngineWritesNeitherLenNorMsg := by
  unfold Obligations.EngineWritesNeitherLenNorMsg
  intro s t hp hnext hstep
  rw [step_of_engineNext hnext] at hstep
  obtain ⟨hlen, hbyte⟩ := keepsLenAndMsg_engineTurn (s := popEvent s) hp hstep
  exact ⟨hlen, hbyte⟩

/-- Settles O49: a read writes no more than what it returns and an error, a write while BUSY no more than an error. -/
theorem busyHostKeepsTheInputs : Obligations.BusyHostKeepsTheInputs := by
  unfold Obligations.BusyHostKeepsTheInputs
  rintro s t rest hbusy (⟨addr, n, hread⟩ | ⟨addr, n, v, hwrite⟩) hstep
  · rw [step_of_event hread] at hstep
    cases hstep
    exact memRead_frame ..
  · rw [step_of_event hwrite] at hstep
    cases hstep
    have hframe := memWrite_busy_frame (busOffset s.params addr) n v (s := { s with sched := rest }) hbusy
    have hlog := congrArg State.readLog hframe
    have hdraws := congrArg State.draws hframe
    show memWrite (busOffset s.params addr) n v { s with sched := rest } = _
    rw [hlog, hdraws]
    exact hframe

end

section
/-! The host's accesses to the memories, the exact and the free reads, and the accesses that are not legal, each in one
equation (20_memory.md R54 to R63). -/

namespace Sys2Proof.Machine

/-! ### Accesses that are not legal -/

theorem memRead_of_not_legal {off n : Nat} {s : State} (h : ¬ legal s.params off n) :
    memRead off n s = respond 0 (raiseError .busAccess s) := if_neg h

theorem memWrite_of_not_legal {off n : Nat} {s : State} (v : Word) (h : ¬ legal s.params off n) :
    memWrite off n v s = raiseError .busAccess s := if_neg h

/-! ### Writes to the memories -/

/-- A byte of a word in numbers (R54). -/
theorem toNat_byteOfWord (v : Word) (k : Nat) : (byteOfWord v k).toNat = v.toNat / 2 ^ (8 * k) % 2 ^ 8 := by
  rw [byteOfWord, BitVec.extractLsb'_toNat, Nat.shiftRight_eq_div_pow]

/-- A performed write at or above WMEM's first offset is a store (R63). -/
theorem writeIdle_memory {off : Nat} (n : Nat) (v : Word) (s : State) (hoff : 0x04000 ≤ off) :
    writeIdle off n v s = { s with mem := s.mem.store off n v } := by
  rw [writeIdle, if_neg (by omega), if_neg (by omega), if_neg (by omega), if_neg (by omega)]

theorem step_write_memory {s : State} {off n : Nat} {v : Word} {rest : List Event} (hidle : s.phase = .idle)
    (hoff : off < 2 ^ 32) (hmem : 0x04000 ≤ off) (hl : legal s.params off n)
    (h : s.sched = .write (busAddr s.params off) n v :: rest) :
    step s = .next { s with sched := rest, mem := s.mem.store off n v } := by
  rw [step_write hoff h, memWrite_of_idle (s := { s with sched := rest }) v hidle hl (by omega),
    writeIdle_memory n v _ hmem]

/-! ### Reads of the memories -/

/-- A byte of MSG reads exactly, at any phase (R62). -/
theorem memRead_msg_byte {off : Nat} {s : State} (hlow : 0x10000 ≤ off) (hhigh : off < 0x10000 + s.params.msgBytes) :
    memRead off 1 s = respond ((s.byteAt off).setWidth 32) s := by
  have hl : legal s.params off 1 := .inr (.inr ⟨hlow, hhigh, .inl rfl⟩)
  rw [memRead, if_pos hl, if_neg (by omega), if_neg (by omega), if_pos rfl]

/-- An aligned word of MSG reads exactly, at any phase (R62). -/
theorem memRead_msg_word {off : Nat} {s : State} (halign : off % 4 = 0) (hlow : 0x10000 ≤ off)
    (hhigh : off + 4 ≤ 0x10000 + s.params.msgBytes) : memRead off 4 s = respond (s.wordAt off) s := by
  have hl : legal s.params off 4 := .inr (.inr ⟨hlow, hhigh, .inr ⟨rfl, halign⟩⟩)
  rw [memRead, if_pos hl, if_neg (by omega), if_neg (by omega), if_neg (by decide)]

/-- A word of WMEM reads exactly in phase IDLE, and as a free value while BUSY (R62). -/
theorem memRead_wmem {off : Nat} {s : State} (hl : legal s.params off 4) (hlow : 0x04000 ≤ off) (hhigh : off < 0x10000) :
    memRead off 4 s = if s.busy then respondAny s else respond (s.wordAt off) s := by
  rw [memRead, if_pos hl, if_neg (by omega), if_pos hhigh]

/-! ### Reads of the registers -/

theorem memRead_register {off : Nat} (s : State) (hoff : off ≤ 0x0FC) (halign : off % 4 = 0) :
    memRead off 4 s = readReg off s := by
  rw [memRead, if_pos (legal_register _ hoff halign), if_pos hoff]

/-- An engine-written register reads exactly in phase IDLE, and as a free value while BUSY (R62). -/
theorem memRead_engineWrittenReg {off : Nat} (s : State) (hreg : engineWrittenReg off) (halign : off % 4 = 0) :
    memRead off 4 s = if s.busy then respondAny s else respond (regView off s) s := by
  rw [memRead_register s (by omega) halign, readReg, if_neg (by omega), if_neg (by omega), if_pos hreg]

theorem step_read_engineWrittenReg {s : State} {off : Nat} {rest : List Event} (hidle : s.phase = .idle)
    (hreg : engineWrittenReg off) (halign : off % 4 = 0) (h : s.sched = .read (busAddr s.params off) 4 :: rest) :
    step s = .next { s with sched := rest, readLog := regView off s :: s.readLog } := by
  rw [step_read (by omega) h, memRead_engineWrittenReg _ hreg halign, if_neg (by simp [hidle])]
  rfl

/-- The word at HEXk's offset is HEXk (10_state.md R33). -/
theorem regView_hex (s : State) (k : Nat) : regView (0x040 + 4 * k) s = s.hexWord k := by
  rw [regView, if_neg (by omega), if_neg (by omega), if_neg (by omega), show (0x040 + 4 * k - 0x040) / 4 = k by omega]

/-- HEXk by its characters, the first least significant (10_state.md R33). -/
theorem hexWord_eq (s : State) (k : Nat) :
    s.hexWord k = s.hex[4 * k + 3]! ++ s.hex[4 * k + 2]! ++ s.hex[4 * k + 1]! ++ s.hex[4 * k]! := by
  have hchar (m : Nat) : s.hex.toList.getD m 0 = s.hex[m]! := by
    rw [List.getD_eq_getElem?_getD, Vector.getElem?_toList, getElem!_def]
    cases s.hex[m]? <;> rfl
  simp only [State.hexWord, hchar]
  rfl

/-! ### Runs -/

/-- A run of the machine goes on from the state its first step answers. -/
theorem run_succ_of_step {s t : State} (k : Nat) (h : step s = .next t) :
    Host.Core.run Sys2Proof.core (k + 1) s = Host.Core.run Sys2Proof.core k t := by
  have hcore : Sys2Proof.core.step s = .next t := h
  simp only [Host.Core.run, hcore]

end Sys2Proof.Machine

open Sys2Proof Sys2Proof.Machine

/-- Settles O29: an access that is not legal reaches the error record alone. -/
theorem illegalAccessRaisesBusAccess : Obligations.IllegalAccessRaisesBusAccess := by
  unfold Obligations.IllegalAccessRaisesBusAccess
  intro s off n v rest hoff hl
  refine ⟨fun hread => ?_, fun hwrite => ?_⟩
  · rw [step_read hoff hread, memRead_of_not_legal (s := { s with sched := rest }) hl, raiseError_eq]
    rfl
  · rw [step_write hoff hwrite, memWrite_of_not_legal (s := { s with sched := rest }) v hl, raiseError_eq]

/-- Settles O32: the write is a store of the value's low bytes. -/
theorem idleMemoryWrites : Obligations.IdleMemoryWrites := by
  unfold Obligations.IdleMemoryWrites
  intro s off n v rest hidle hoff hmem hl hwrite
  have hbyte (a : Nat) := byte_store s.epoch s.mem off n a v
  refine ⟨_, step_write_memory hidle hoff hmem hl hwrite, rfl, fun k hk => ?_, fun a ha => ?_⟩
  · rw [State.byteAt, hbyte, if_pos (by omega), Nat.add_sub_cancel_left, toNat_byteOfWord]
  · rw [State.byteAt, hbyte, if_neg ha, State.byteAt]

/-- Settles O34: the offsets left are those of registers that the host cannot write. -/
theorem readOnlyWritesAreIgnored : Obligations.ReadOnlyWritesAreIgnored := by
  unfold Obligations.ReadOnlyWritesAreIgnored
  intro s off v rest hoff halign h0 h4 h8 hC h10 hwrite
  rw [step_write (by omega) hwrite, memWrite_readOnly v _ hoff halign h0 h4 h8 hC h10]

/-- Settles O35, register by register and memory by memory. -/
theorem exactReads : Obligations.ExactReads := by
  unfold Obligations.ExactReads
  intro s off n rest hread returns le
  have hreturns {v : Word} (hoff : off < 2 ^ 32)
      (h : memRead off n { s with sched := rest } = respond v { s with sched := rest }) : returns v := by
    show step s = _
    rw [step_read hoff hread, h]
    rfl
  have hslot {o : Nat} {v : Word} (ho : o ≤ 0x0FC) (halign : o % 4 = 0)
      (hv : readReg o { s with sched := rest } = respond v { s with sched := rest }) : n = 4 ∧ off = o → returns v := by
    rintro ⟨rfl, rfl⟩
    exact hreturns (by omega) ((memRead_register _ ho halign).trans hv)
  refine ⟨hslot (by decide) (by decide) rfl, hslot (by decide) (by decide) rfl, hslot (by decide) (by decide) rfl,
    ?_, ?_, ?_, fun hidle => ?_⟩
  · rintro ⟨rfl, halign, hres⟩
    exact hreturns (by omega) (memRead_reserved _ hres halign)
  · rintro ⟨rfl, hlow, hhigh, hoff⟩
    exact hreturns hoff (memRead_msg_byte hlow hhigh)
  · rintro ⟨rfl, halign, hlow, hhigh, hoff⟩
    exact hreturns hoff (memRead_msg_word halign hlow hhigh)
  have hview {o : Nat} {v : Word} (ho : engineWrittenReg o) (halign : o % 4 = 0) (hv : regView o s = v) :
      n = 4 ∧ off = o → returns v := by
    rintro ⟨rfl, rfl⟩
    exact hv ▸ step_read_engineWrittenReg hidle ho halign hread
  have hhex (k : Fin 8) : regView (0x040 + 4 * k.val) s = le (fun m => s.hex[m]!) (4 * k.val) :=
    (regView_hex s k).trans (hexWord_eq s k)
  refine ⟨hview (by decide) (by decide) rfl, hview (by decide) (by decide) rfl, hview (by decide) (by decide) rfl,
    hview (by decide) (by decide) rfl, hview (by decide) (by decide) rfl, hview (by decide) (by decide) rfl,
    fun k => hview (by omega) (by omega) (hhex k), ?_⟩
  rintro ⟨rfl, halign, hlow, hhigh, hoff⟩
  have hl : legal s.params off 4 := .inr (.inl ⟨hlow, hhigh, rfl, halign⟩)
  refine hreturns (by omega) ?_
  rw [memRead_wmem (s := { s with sched := rest }) hl hlow hoff, if_neg (by simp [hidle])]
  rfl

/-- Settles O36: while BUSY, engine-written registers and WMEM read as a fresh free value. -/
theorem busyReadsReturnAFreeValue : Obligations.BusyReadsReturnAFreeValue := by
  unfold Obligations.BusyReadsReturnAFreeValue
  intro s off rest hphase hl htarget hread
  have hbusy : ({ s with sched := rest } : State).busy = true := by simp [hphase]
  have hany : memRead off 4 { s with sched := rest } = respondAny { s with sched := rest } := by
    by_cases hwmem : 0x04000 ≤ off
    · rw [memRead_wmem (s := { s with sched := rest }) hl hwmem (by omega), if_pos hbusy]
    · rw [memRead_engineWrittenReg _ (by omega) (by unfold legal at hl; omega), if_pos hbusy]
  rw [step_read (by omega) hread, hany]
  rfl

/-- Settles O37: the write is a store of the four bytes, and the read returns the byte that stands there. -/
theorem msgWordWriteByteRead : Obligations.MsgWordWriteByteRead := by
  unfold Obligations.MsgWordWriteByteRead
  intro s k i v rest hidle hp hk hsched
  obtain ⟨-, hmsg, -⟩ := hp
  let u : State := { s with
    sched := rd8 s.params (0x10000 + 4 * k + i.val) :: rest, mem := s.mem.store (0x10000 + 4 * k) 4 v }
  have hwrite : step s = .next u :=
    step_write_memory hidle (by omega) (by omega) (.inr (.inr ⟨by omega, by omega, .inr ⟨rfl, by omega⟩⟩)) hsched
  have hread : step u = .next (respond ((u.byteAt (0x10000 + 4 * k + i.val)).setWidth 32) { u with sched := rest }) := by
    rw [step_read (s := u) (by omega) rfl, memRead_msg_byte (s := { u with sched := rest }) (by omega)]
    · rfl
    · show _ < 0x10000 + s.params.msgBytes
      omega
  have hbyte : u.byteAt (0x10000 + 4 * k + i.val) = byteOfWord v i.val := by
    rw [State.byteAt, byte_store, if_pos (by omega), Nat.add_sub_cancel_left]
  refine ⟨_, (run_succ_of_step 1 hwrite).trans (run_succ_of_step 0 hread), ?_⟩
  rw [respond_readLog, hbyte, ← toNat_byteOfWord, BitVec.ofNat_toNat]

end

section
/-! The three decoders as bijections (30_encoding.md R80 to R89): OP, STEP and FSEL values stand one for one for the
well-formed instructions of their format, the encoding carries that value, and the bytes are decoded by reading it. -/

namespace Sys2Proof.Machine

/-! ### Values and instructions -/

/-- The rows of R86: an OP value decodes to a well-formed command, whose encoding is a CMD word with that OP field. -/
theorem decodeOp_row (op : BitVec 4) :
    (decodeOp op).wf = true ∧ (decodeOp op).format = .cmd ∧ encode (decodeOp op) = cmdBytes op := by
  revert op; decide

/-- The rows of R87: a STEP value decodes to a well-formed step operation, whose encoding is that value in one byte. -/
theorem decodeStep_row (i : BitVec 6) :
    (decodeStep i).wf = true ∧ (decodeStep i).format = .step ∧ encode (decodeStep i) = [0#2 ++ i] := by
  revert i; decide

/-- The rows of R82: an FSEL value decodes to a round function, whose encoding is that value in one byte. -/
theorem decodeFsel_row (sel : BitVec 2) :
    (decodeFsel sel).wf = true ∧ (decodeFsel sel).format = .fsel ∧ encode (decodeFsel sel) = [0#6 ++ sel] := by
  revert sel; decide

/-- No two OP values decode alike: the reserved rows keep their OP field (log 15). -/
theorem decodeOp_injective : Function.Injective decodeOp := by
  unfold Function.Injective; decide

theorem decodeOp_of_8_le {op : BitVec 4} (h : (8#4).ule op = true) : decodeOp op = .reserved8F op := by
  revert op; decide

/-- A STEP value by its fields RSEL and J (R81). -/
theorem decodeStep_append (rsel : BitVec 2) (j : BitVec 4) :
    decodeStep (rsel ++ j) =
      if rsel = 0b00#2 then .ff j else if rsel = 0b01#2 then .gg j else if rsel = 0b10#2 then .hh j else .ii j := by
  rw [decodeStep, BitVec.extractLsb'_append_eq_left, BitVec.extractLsb'_append_eq_right]

/-- Every well-formed instruction is what some value of its format decodes to. -/
theorem wf_cases {instr : Instr} (h : instr.wf = true) :
    (∃ op, instr = decodeOp op) ∨ (∃ i, instr = decodeStep i) ∨ ∃ sel, instr = decodeFsel sel := by
  cases instr with
  | nop => exact .inl ⟨0x0, rfl⟩
  | init => exact .inl ⟨0x1, rfl⟩
  | pack => exact .inl ⟨0x2, rfl⟩
  | compress => exact .inl ⟨0x3, rfl⟩
  | fold => exact .inl ⟨0x4, rfl⟩
  | digest => exact .inl ⟨0x5, rfl⟩
  | reserved67 op =>
    have hop : op = 6#4 ∨ op = 7#4 := by simpa [Instr.wf] using h
    rcases hop with rfl | rfl
    · exact .inl ⟨0x6, rfl⟩
    · exact .inl ⟨0x7, rfl⟩
  | reserved8F op => exact .inl ⟨op, (decodeOp_of_8_le h).symm⟩
  | ff j => exact .inr (.inl ⟨0b00#2 ++ j, (decodeStep_append 0b00 j).symm⟩)
  | gg j => exact .inr (.inl ⟨0b01#2 ++ j, (decodeStep_append 0b01 j).symm⟩)
  | hh j => exact .inr (.inl ⟨0b10#2 ++ j, (decodeStep_append 0b10 j).symm⟩)
  | ii j => exact .inr (.inl ⟨0b11#2 ++ j, (decodeStep_append 0b11 j).symm⟩)
  | f => exact .inr (.inr ⟨0b00, rfl⟩)
  | g => exact .inr (.inr ⟨0b01, rfl⟩)
  | h => exact .inr (.inr ⟨0b10, rfl⟩)
  | i => exact .inr (.inr ⟨0b11, rfl⟩)

/-! ### Values and bytes -/

theorem toNat_zero_append_lt {n : Nat} (m : Nat) (x : BitVec n) : (0#m ++ x).toNat < 2 ^ n := by
  simp [x.isLt]

/-- A number that n bits hold is its low n bits, the bits above being 0. -/
theorem zero_append_extractLsb' {m n : Nat} {b : BitVec (m + n)} (h : b.toNat < 2 ^ n) :
    0#m ++ b.extractLsb' 0 n = b := by
  refine BitVec.eq_of_toNat_eq ?_
  simp [Nat.mod_eq_of_lt h]

/-- The mask of bits [3:0] keeps the OP field (R80). -/
theorem and_0xF (v : Word) : v &&& 0xF = 0#28 ++ v.extractLsb' 0 4 := by
  rw [← BitVec.setWidth_eq_extractLsb' (by decide)]
  exact BitVec.and_setWidth_allOnes 28 4 v

theorem and_0xF_eq_iff {v w : Word} : v &&& 0xF = w &&& 0xF ↔ v.extractLsb' 0 4 = w.extractLsb' 0 4 := by
  rw [and_0xF, and_0xF]
  refine ⟨fun h => ?_, fun h => by rw [h]⟩
  simpa only [BitVec.extractLsb'_append_eq_right] using congrArg (·.extractLsb' 0 4) h

theorem decode_cmdBytes (op : BitVec 4) : decode .cmd (cmdBytes op) = .ok (decodeOp op) := by
  rw [cmdBytes, decode, wordOfBytes_byteOfWord, decodeCmd, BitVec.extractLsb'_append_eq_right]

theorem decode_step_byte (i : BitVec 6) : decode .step [0#2 ++ i] = .ok (decodeStep i) := by
  refine (if_pos (toNat_zero_append_lt 2 i)).trans ?_
  rw [BitVec.extractLsb'_append_eq_right]

theorem decode_fsel_byte (sel : BitVec 2) : decode .fsel [0#6 ++ sel] = .ok (decodeFsel sel) := by
  refine (if_pos (toNat_zero_append_lt 6 sel)).trans ?_
  rw [BitVec.extractLsb'_append_eq_right]

/-- What decodes is a value of its format, and a STEP or FSEL byte holds no more than that value. -/
theorem decode_cases {fmt : Format} {bytes : List Byte} {instr : Instr} (h : decode fmt bytes = .ok instr) :
    (fmt = .cmd ∧ ∃ op, instr = decodeOp op)
    ∨ (fmt = .step ∧ ∃ i, instr = decodeStep i ∧ bytes = [0#2 ++ i])
    ∨ (fmt = .fsel ∧ ∃ sel, instr = decodeFsel sel ∧ bytes = [0#6 ++ sel]) := by
  unfold decode at h
  split at h
  · cases h; exact .inl ⟨rfl, _, rfl⟩
  · cases h
  · split at h <;> cases h
    next hb => exact .inr (.inl ⟨rfl, _, rfl, by rw [zero_append_extractLsb' (m := 2) hb]⟩)
  · cases h
  · split at h <;> cases h
    next hb => exact .inr (.inr ⟨rfl, _, rfl, by rw [zero_append_extractLsb' (m := 6) hb]⟩)
  · cases h

end Sys2Proof.Machine

open Sys2Proof Sys2Proof.Machine

/-- Settles O56: a well-formed instruction is what a value decodes to, and its encoding carries that value. -/
theorem decodeOfEncode : Obligations.DecodeOfEncode := by
  unfold Obligations.DecodeOfEncode
  intro instr hwf
  rcases wf_cases hwf with ⟨op, rfl⟩ | ⟨i, rfl⟩ | ⟨sel, rfl⟩
  · obtain ⟨-, hformat, hencode⟩ := decodeOp_row op
    rw [hformat, hencode, decode_cmdBytes]
  · obtain ⟨-, hformat, hencode⟩ := decodeStep_row i
    rw [hformat, hencode, decode_step_byte]
  · obtain ⟨-, hformat, hencode⟩ := decodeFsel_row sel
    rw [hformat, hencode, decode_fsel_byte]

/-- Settles O57: what decodes is a value's row, and the bytes hold that value. -/
theorem decodedInstructionsAreWellFormed : Obligations.DecodedInstructionsAreWellFormed := by
  unfold Obligations.DecodedInstructionsAreWellFormed
  refine ⟨fun fmt bytes instr h => ?_, fun v w => ?_, fun b => ⟨fun hb => ?_, fun hb => ?_, fun hb => ?_, fun hb => ?_⟩⟩
  · rcases decode_cases h with ⟨rfl, op, rfl⟩ | ⟨rfl, i, rfl, rfl⟩ | ⟨rfl, sel, rfl, rfl⟩
    · obtain ⟨hwf, hformat, -⟩ := decodeOp_row op
      exact ⟨hwf, hformat, fun hne => absurd rfl hne⟩
    · obtain ⟨hwf, hformat, hencode⟩ := decodeStep_row i
      exact ⟨hwf, hformat, fun _ => hencode⟩
    · obtain ⟨hwf, hformat, hencode⟩ := decodeFsel_row sel
      exact ⟨hwf, hformat, fun _ => hencode⟩
  · exact decodeOp_injective.eq_iff.trans and_0xF_eq_iff.symm
  · exact ⟨_, if_pos hb⟩
  · exact if_neg (by omega)
  · exact ⟨_, if_pos hb⟩
  · exact if_neg (by omega)

/-- Settles O58: the words are concrete, so each is decoded. -/
theorem sampleWordsDecode : Obligations.SampleWordsDecode := by
  unfold Obligations.SampleWordsDecode
  decide

end

section
/-! The host's byte preparation (40_host_byte_prep.md R101, R102): the bytes of a unit as numbers, and line-end
normalisation by its first unit. -/

namespace Sys2Proof.Machine

/-! ### Byte stuffing -/

/-- A tag whose low `i` bits are 0, set above an `i`-bit field, adds up with it; where one byte holds both, the field
is the byte's low bits. -/
theorem toNat_setWidth_or_tag {x tag : BitVec 16} (i a : Nat) (htag : tag.toNat = 2 ^ i * a) (hx : x.toNat < 2 ^ i)
    (hbyte : 2 ^ i * a + 2 ^ i ≤ 2 ^ 8) : ((x ||| tag).setWidth 8).toNat = tag.toNat + x.toNat := by
  have hor : x.toNat ||| tag.toNat = tag.toNat + x.toNat := by
    rw [htag, Nat.two_pow_add_eq_or_of_lt hx, Nat.or_comm]
  rw [BitVec.toNat_setWidth, BitVec.toNat_or, hor, Nat.mod_eq_of_lt (by omega)]

/-- The mask 63 keeps a unit modulo 64. -/
theorem toNat_and_63 (x : BitVec 16) : (x &&& 63#16).toNat = x.toNat % 64 :=
  (BitVec.toNat_and ..).trans (Nat.and_two_pow_sub_one_eq_mod x.toNat 6)

/-- A right shift in numbers. -/
theorem toNat_ushiftRight_eq_div (x : BitVec 16) (n : Nat) : (x >>> n).toNat = x.toNat / 2 ^ n :=
  (BitVec.toNat_ushiftRight ..).trans (Nat.shiftRight_eq_div_pow ..)

/-- A byte after the first (R102): six bits of the unit under the tag 128. -/
theorem toNat_continuationByte (x : BitVec 16) :
    (((x &&& 63#16) ||| 128#16).setWidth 8).toNat = 128 + x.toNat % 64 := by
  have hlow : (x &&& 63#16).toNat < 2 ^ 6 := by rw [toNat_and_63]; omega
  rw [toNat_setWidth_or_tag 6 2 rfl hlow (by decide), toNat_and_63]
  rfl

/-- The first of two bytes (R102): the bits of the unit from bit 6 up, under the tag 192. -/
theorem toNat_leadByte_of_lt {c : BitVec 16} (h : c.toNat < 2048) :
    (((c >>> 6) ||| 192#16).setWidth 8).toNat = 192 + c.toNat / 64 := by
  have hshift : (c >>> 6).toNat = c.toNat / 64 := toNat_ushiftRight_eq_div c 6
  rw [toNat_setWidth_or_tag 6 3 rfl (by omega) (by decide), hshift]
  rfl

/-- The first of three bytes (R102): the top four bits of the unit, under the tag 224. -/
theorem toNat_leadByte (c : BitVec 16) :
    (((c >>> 12) ||| 224#16).setWidth 8).toNat = 224 + c.toNat / 4096 := by
  have hshift : (c >>> 12).toNat = c.toNat / 4096 := toNat_ushiftRight_eq_div c 12
  rw [toNat_setWidth_or_tag 4 14 rfl (by omega) (by decide), hshift]
  rfl

/-! ### Line-end normalisation -/

@[simp] theorem normaliseLines_nil : normaliseLines [] = [] := rfl

/-- A CR LF pair becomes one LF, and the scan goes on after it. -/
theorem normaliseLines_crlf (rest : List (BitVec 16)) :
    normaliseLines (0x000D :: 0x000A :: rest) = 0x000A :: normaliseLines rest :=
  if_pos ⟨rfl, rfl⟩

/-- A first unit that begins no CR LF pair is kept. -/
theorem normaliseLines_cons {u : BitVec 16} {rest : List (BitVec 16)}
    (h : ¬ (u = 0x000D ∧ rest.head? = some 0x000A)) : normaliseLines (u :: rest) = u :: normaliseLines rest := by
  cases rest with
  | nil => rfl
  | cons v rest => exact if_neg fun ⟨hu, hv⟩ => h ⟨hu, congrArg some hv⟩

theorem normaliseLines_of_no_cr {text : List (BitVec 16)} (h : 0x000D ∉ text) : normaliseLines text = text := by
  induction text with
  | nil => rfl
  | cons u rest ih =>
    have hpair : ¬ (u = 0x000D ∧ rest.head? = some 0x000A) := fun ⟨hu, _⟩ => List.ne_of_not_mem_cons h hu.symm
    rw [normaliseLines_cons hpair, ih (List.not_mem_of_not_mem_cons h)]

end Sys2Proof.Machine

open Sys2Proof Sys2Proof.Machine

/-- Settles O59, by the three lengths of R102, byte by byte. -/
theorem byteStuffing : Obligations.ByteStuffing := by
  unfold Obligations.ByteStuffing
  intro c
  unfold stuffUnit
  split
  next h =>
    have hbyte : (c.setWidth 8).toNat = c.toNat := Nat.mod_eq_of_lt (by omega)
    rw [List.map_singleton, hbyte]
  next =>
    split
    next h => rw [List.map_cons, List.map_singleton, toNat_leadByte_of_lt h, toNat_continuationByte]
    next =>
      have hshift : (c >>> 6).toNat = c.toNat / 64 := toNat_ushiftRight_eq_div c 6
      rw [List.map_cons, List.map_cons, List.map_singleton, toNat_leadByte, toNat_continuationByte,
        toNat_continuationByte, hshift]

/-- Settles O60: the scan's equations, and an induction over a text with no CR. -/
theorem lineEndNormalisation : Obligations.LineEndNormalisation := by
  unfold Obligations.LineEndNormalisation
  exact ⟨normaliseLines_crlf, fun _ _ => normaliseLines_cons, normaliseLines_nil, fun _ => normaliseLines_of_no_cr⟩

end

section
/-! The padded message of `pack` as the byte list of the reference form (41_padding_packing.md R111 to R115): the list
place by place, its length field as the number of R115, and the word array that PACK leaves as that list. -/

namespace Sys2Proof.Safety

open Sys2Proof.Machine

/-! ### The length field -/

/-- The two length words of R115 are the high and the low half of 8 * L. -/
theorem toNat_length_words (len : Word) :
    (len >>> 29).toNat * 2 ^ 32 + (len <<< 3).toNat = 8 * len.toNat := by
  rw [BitVec.toNat_ushiftRight, BitVec.toNat_shiftLeft, Nat.shiftRight_eq_div_pow, Nat.shiftLeft_eq]
  omega

/-- Byte k of the length field in numbers: a byte of the low word for k < 4, of the high word from there on. -/
theorem toNat_lengthByte (len : Word) {k : Nat} (hk : k < 8) :
    (lengthByte len k).toNat = 8 * len.toNat / 256 ^ k % 2 ^ 8 := by
  have hwords := toNat_length_words len
  have hlow := (len <<< 3).isLt
  unfold lengthByte
  split
  case isTrue => rw [toNat_byteOfWord]; interval_cases k <;> omega
  case isFalse => rw [toNat_byteOfWord]; interval_cases k <;> omega

theorem getD_lengthField (len : Word) {k : Nat} (hk : k < 8) :
    (lengthField len.toNat).getD k 0 = lengthByte len k := by
  have hlen : k < (lengthField len.toNat).length := by simpa [lengthField] using hk
  refine BitVec.eq_of_toNat_eq ?_
  rw [List.getD_eq_getElem _ _ hlen, toNat_lengthByte len hk]
  simp [lengthField]

/-! ### The padded byte list -/

/-- The padded message place by place: the message, 0x80, zeros, and the length field in the last eight places. -/
theorem getD_paddedBytes (msg : List Byte) (p : Nat) :
    (paddedBytes msg).getD p 0 =
      if p < msg.length then msg.getD p 0
      else if p = msg.length then 0x80
      else if p < 64 * blockCount msg.length - 8 then 0
      else (lengthField msg.length).getD (p - (64 * blockCount msg.length - 8)) 0 := by
  obtain ⟨hroom, -⟩ := blockCount_room msg.length
  unfold paddedBytes
  generalize blockCount msg.length = nb at hroom
  have hmark : (msg ++ ([0x80] : List Byte)).length = msg.length + 1 := List.length_append
  have hzeros : (msg ++ ([0x80] : List Byte) ++ List.replicate (64 * nb - msg.length - 9) 0).length = 64 * nb - 8 := by
    rw [List.length_append, hmark, List.length_replicate]
    omega
  split_ifs with hmsg hpad hzero
  · rw [List.append_assoc, List.append_assoc, List.getD_append _ _ _ _ hmsg]
  · rw [List.append_assoc, List.append_assoc, List.getD_append_right _ _ _ _ (by omega), hpad, Nat.sub_self]
    rfl
  · rw [List.getD_append _ _ _ _ (by omega), List.getD_append_right _ _ _ _ (by omega), List.getD_replicate]
    omega
  · rw [List.getD_append_right _ _ _ _ (by omega), hzeros]

@[simp] theorem length_messageOf (s : State) : (messageOf s).length = s.len.toNat := by
  rw [messageOf, List.length_map, List.length_range]

theorem getD_messageOf (s : State) {p : Nat} (hp : p < s.len.toNat) : (messageOf s).getD p 0 = s.MSG p := by
  rw [List.getD_eq_getElem _ _ (by simpa using hp)]
  simp [messageOf]

/-! ### The state after `pack` -/

@[simp] theorem byteAt_complete (s : State) (a : Nat) : (complete s).byteAt a = s.byteAt a := rfl

@[simp] theorem W_complete (s : State) (n : Nat) : (complete s).W n = s.W n := rfl

/-- A word of WMEM is its four bytes, little-endian (20_memory.md R53). -/
theorem W_eq_wordOfBytes (s : State) (n : Nat) :
    s.W n = wordOfBytes (s.byteAt (0x04000 + (4 * n + 0))) (s.byteAt (0x04000 + (4 * n + 1)))
      (s.byteAt (0x04000 + (4 * n + 2))) (s.byteAt (0x04000 + (4 * n + 3))) := rfl

section
variable {s : State} (hp : s.params.Legal) (hfits : Fits s)
include hp hfits

theorem toNat_nblk_packMessage : (packMessage s).nblk.toNat = blockCount s.len.toNat := by
  rw [packMessage_nblk, BitVec.toNat_ofNat, Nat.mod_eq_of_lt (blockCount_lt hp hfits)]

/-- The word array holds the padded message, and every other byte is as before (R112 to R115). -/
theorem byteAt_packMessage (a : Nat) :
    (packMessage s).byteAt a =
      if 0x04000 ≤ a ∧ a < 0x04000 + 64 * blockCount s.len.toNat then (paddedBytes (messageOf s)).getD (a - 0x04000) 0
      else s.byteAt a := by
  obtain ⟨-, -, -, hwmem⟩ := hp
  obtain ⟨-, hblocks⟩ := hfits
  rw [State.byteAt, packMessage_epoch, packMessage_mem, byte_packMemory _ _ _ _ (by omega), getD_paddedBytes,
    length_messageOf]
  split_ifs with _ hmsg
  · rw [getD_messageOf s hmsg, State.MSG, State.byteAt]
  · rfl
  · rfl
  · rw [getD_lengthField _ (by omega)]
  · rfl

/-- Place p of the word array is place p of the padded message. -/
theorem byteAt_packMessage_place {p : Nat} (hlt : p < 64 * blockCount s.len.toNat) :
    (packMessage s).byteAt (0x04000 + p) = (paddedBytes (messageOf s)).getD p 0 := by
  rw [byteAt_packMessage hp hfits, if_pos (by omega), Nat.add_sub_cancel_left]

/-- The word array as words: those of the padded message, little-endian (20_memory.md R53). -/
theorem W_packMessage {n : Nat} (hn : n < 16 * blockCount s.len.toNat) :
    (packMessage s).W n = listWord (paddedBytes (messageOf s)) n := by
  have hplace (k : Nat) (hk : k < 4) := byteAt_packMessage_place hp hfits (p := 4 * n + k) (by omega)
  rw [W_eq_wordOfBytes, hplace 0 (by omega), hplace 1 (by omega), hplace 2 (by omega), hplace 3 (by omega), listWord,
    Nat.add_zero]

end

/-- The last two words of the word array are the length words (R115). -/
theorem word_packLength (e nb : Nat) (len : Word) (m : Memory) (hnb : 1 ≤ nb) :
    Memory.word e (packLength nb len m) (wmemOff (16 * nb - 1)) = len >>> 29
      ∧ Memory.word e (packLength nb len m) (wmemOff (16 * nb - 2)) = len <<< 3 := by
  refine ⟨word_setW_same .., ?_⟩
  rw [packLength, word_setW_other _ _ _ (by omega), word_setW_same]

theorem W_packMessage_length (s : State) :
    (packMessage s).W (16 * blockCount s.len.toNat - 1) = s.len >>> 29
      ∧ (packMessage s).W (16 * blockCount s.len.toNat - 2) = s.len <<< 3 :=
  word_packLength _ _ _ _ (Nat.succ_pos _)

end Sys2Proof.Safety

open Sys2Proof Sys2Proof.Machine Sys2Proof.Safety

/-- Settles O18: the memory after `pack`, byte by byte, is the padded byte list over the old memory. -/
theorem packBuildsThePaddedMessage : Obligations.PackBuildsThePaddedMessage := by
  unfold Obligations.PackBuildsThePaddedMessage
  intro s hp hfits
  have hnblk : (complete (packMessage s)).nblk.toNat = blockCount s.len.toNat := toNat_nblk_packMessage hp hfits
  refine ⟨complete (packMessage s), exec_pack_fits hfits, rfl, hnblk, fun p hlt => ?_, fun a ha => ?_⟩
  · rw [hnblk] at hlt
    rw [byteAt_complete, byteAt_packMessage_place hp hfits hlt]
  · rw [hnblk] at ha
    rw [byteAt_complete, byteAt_packMessage hp hfits, if_neg ha]

/-- Settles O19: the two length words are stored last, and nothing overwrites them. -/
theorem packStoresTheBitLength : Obligations.PackStoresTheBitLength := by
  unfold Obligations.PackStoresTheBitLength
  intro s t hp hfits hpack
  obtain rfl : complete (packMessage s) = t := Host.Outcome.next.inj ((exec_pack_fits hfits).symm.trans hpack)
  obtain ⟨hhigh, hlow⟩ := W_packMessage_length s
  rw [complete_nblk, toNat_nblk_packMessage hp hfits, W_complete, W_complete, hhigh, hlow, toNat_length_words]

/-- Settles O20: the empty message fits, and its padded form is one block. -/
theorem packOfEmptyMessage : Obligations.PackOfEmptyMessage := by
  unfold Obligations.PackOfEmptyMessage
  intro s hp hlen
  replace hlen : s.len.toNat = 0 := by rw [hlen]; rfl
  have hblocks : blockCount s.len.toNat = 1 := by rw [hlen]; rfl
  have hfits : Fits s := by
    obtain ⟨-, -, hwmem, -⟩ := hp
    exact ⟨by omega, by omega⟩
  have hword {n : Nat} (hn : n < 16) : (complete (packMessage s)).W n = listWord (paddedBytes []) n := by
    rw [W_complete, W_packMessage hp hfits (by omega), List.eq_nil_of_length_eq_zero ((length_messageOf s).trans hlen)]
  have hmark : listWord (paddedBytes []) 0 = 0x00000080 := by decide
  have hzero : ∀ n < 16, 1 ≤ n → listWord (paddedBytes []) n = 0 := by decide
  refine ⟨complete (packMessage s), exec_pack_fits hfits, ?_, (hword (by omega)).trans hmark, fun n h1 hn => ?_⟩
  · rw [complete_nblk, packMessage_nblk, hblocks]
    rfl
  · exact (hword hn).trans (hzero n hn h1)

end

section
/-! The schedule of the steps (42_round_pipeline.md R131 to R139): the round functions bit by bit, the word index and the
shift amount of each position of a round, and the additive constants. -/

namespace Sys2Proof.Machine

/-! ### Round functions -/

theorem getLsbD_fnF (x y z : Word) {n : Nat} (hn : n < 32) :
    (fnF x y z).getLsbD n = if x.getLsbD n then y.getLsbD n else z.getLsbD n := by
  rw [fnF, BitVec.getLsbD_or, BitVec.getLsbD_and, BitVec.getLsbD_and, BitVec.getLsbD_not, decide_eq_true hn]
  cases x.getLsbD n <;> simp

/-- G is F with its selector in the last place (R131, R132). -/
theorem fnG_eq_fnF (x y z : Word) : fnG x y z = fnF z x y := by
  rw [fnG, fnF, BitVec.and_comm x z, BitVec.and_comm y (~~~z)]

theorem getLsbD_fnH (x y z : Word) (n : Nat) :
    (fnH x y z).getLsbD n = ((x.getLsbD n ^^ y.getLsbD n) ^^ z.getLsbD n) := by
  rw [fnH, BitVec.getLsbD_xor, BitVec.getLsbD_xor]

theorem getLsbD_fnI (x y z : Word) {n : Nat} (hn : n < 32) :
    (fnI x y z).getLsbD n = (y.getLsbD n ^^ (x.getLsbD n || !z.getLsbD n)) := by
  rw [fnI, BitVec.getLsbD_xor, BitVec.getLsbD_or, BitVec.getLsbD_not, decide_eq_true hn, Bool.true_and]

/-! ### Round, position, word index and shift amount of a step index -/

theorem rselOf_append (rsel : BitVec 2) (j : BitVec 4) : rselOf (rsel ++ j) = rsel :=
  BitVec.extractLsb'_append_eq_left

theorem jOf_append (rsel : BitVec 2) (j : BitVec 4) : jOf (rsel ++ j) = j :=
  BitVec.extractLsb'_append_eq_right

theorem toNat_tselOf (i : BitVec 6) : (tselOf i).toNat = i.toNat % 4 := by
  simp [tselOf]

theorem toNat_append_mod_four (rsel : BitVec 2) (j : BitVec 4) : (rsel ++ j).toNat % 4 = j.toNat % 4 := by
  rw [BitVec.toNat_append, ← Nat.shiftLeft_add_eq_or_of_lt j.isLt, Nat.shiftLeft_eq]
  omega

theorem wordIndex_lt (i : BitVec 6) : wordIndex i < 16 := by
  have hj := (jOf i).isLt
  rw [wordIndex]
  split_ifs <;> omega

theorem wordIndex_append (rsel : BitVec 2) (j : BitVec 4) :
    wordIndex (rsel ++ j) =
      if rsel = 0b00#2 then j.toNat
      else if rsel = 0b01#2 then (1 + 5 * j.toNat) % 16
      else if rsel = 0b10#2 then (5 + 3 * j.toNat) % 16
      else (7 * j.toNat) % 16 := by
  rw [wordIndex, rselOf_append, jOf_append]

theorem shiftAmount_append (rsel : BitVec 2) (j : BitVec 4) :
    shiftAmount (rsel ++ j) = (shiftsOf rsel).getD (j.toNat % 4) 0 := by
  rw [shiftAmount, rselOf_append, toNat_tselOf, toNat_append_mod_four]

/-- The factors 1, 5, 3 and 7 of R135 are odd, so no two positions of a round use the same word. -/
theorem wordIndex_append_injective (rsel : BitVec 2) :
    Function.Injective fun j : BitVec 4 => wordIndex (rsel ++ j) := by
  intro j j' h
  have hj := j.isLt
  have hj' := j'.isLt
  simp only [wordIndex_append] at h
  refine BitVec.eq_of_toNat_eq ?_
  split_ifs at h <;> omega

/-- A round has as many positions as a block has words, so it uses them all. -/
theorem exists_wordIndex_append_eq (rsel : BitVec 2) (k : Fin 16) : ∃ j : BitVec 4, wordIndex (rsel ++ j) = k.val := by
  have hinj : Function.Injective fun j : Fin 16 =>
      (⟨wordIndex (rsel ++ BitVec.ofFin (w := 4) j), wordIndex_lt _⟩ : Fin 16) := fun j j' h =>
    BitVec.ofFin.inj (wordIndex_append_injective rsel (congrArg Fin.val h))
  obtain ⟨j, hj⟩ := Finite.surjective_of_injective hinj k
  exact ⟨BitVec.ofFin j, congrArg Fin.val hj⟩

/-! ### The target -/

theorem targetOf_tselOf (i : BitVec 6) :
    targetOf (tselOf i) =
      if i.toNat % 4 = 0 then .a else if i.toNat % 4 = 1 then .d else if i.toNat % 4 = 2 then .c else .b := by
  revert i; decide

/-- The next step's target is the register before this step's. -/
theorem succ_targetOf_tselOf_add_one (i : BitVec 6) : (targetOf (tselOf (i + 1))).succ = targetOf (tselOf i) := by
  revert i; decide

end Sys2Proof.Machine

open Sys2Proof Sys2Proof.Machine

/-- Settles O3: each function bit by bit, G being F with its selector in the last place. -/
theorem roundFunctionsBitByBit : Obligations.RoundFunctionsBitByBit := by
  unfold Obligations.RoundFunctionsBitByBit
  intro x y z n hn
  have hG : (fnG x y z).getLsbD n = if z.getLsbD n then x.getLsbD n else y.getLsbD n := by
    rw [fnG_eq_fnF, getLsbD_fnF z x y hn]
  exact ⟨getLsbD_fnF x y z hn, hG, getLsbD_fnH x y z n, getLsbD_fnI x y z hn⟩

/-- Settles O4: the index fields of rsel ++ j are rsel and j, and the word index is injective in j. -/
theorem scheduleFollowsTheFormulas : Obligations.ScheduleFollowsTheFormulas := by
  unfold Obligations.ScheduleFollowsTheFormulas
  refine ⟨fun j => ⟨wordIndex_append 0b00 j, wordIndex_append 0b01 j, wordIndex_append 0b10 j, wordIndex_append 0b11 j,
    shiftAmount_append 0b00 j, shiftAmount_append 0b01 j, shiftAmount_append 0b10 j, shiftAmount_append 0b11 j⟩,
    by decide, fun rsel k => ?_⟩
  obtain ⟨j, hj⟩ := exists_wordIndex_append_eq rsel k
  exact ⟨j, hj, fun j' hj' => wordIndex_append_injective rsel (hj'.trans hj.symm)⟩

/-- Settles O5: the model's table is the same list of words. -/
theorem additiveConstantsAreTheTable : Obligations.AdditiveConstantsAreTheTable := by
  unfold Obligations.AdditiveConstantsAreTheTable
  exact fun _ => rfl

end

section
/-! One step (42_round_pipeline.md R139 to R144): the registers as its target sees them, and the target's new value. -/

namespace Sys2Proof.Machine

/-- Four registers in the cyclic order a, b, c, d from a given one on (R139): a target comes first, and its arguments
(p, q, r) follow. -/
def Regs.rotateTo (t : Reg) (w : Regs) : Regs :=
  { a := w.get t, b := w.get t.succ, c := w.get t.succ.succ, d := w.get t.succ.succ.succ }

/-- The new value of the target v.a with the arguments v.b, v.c, v.d (R140), for a block word x, an additive constant k
and a shift amount. -/
def mix (fn : Word → Word → Word → Word) (x k : Word) (amount : Nat) (v : Regs) : Word :=
  rotl32 (v.a + fn v.b v.c v.d + x + k) amount + v.b

/-- The registers after the target of step n (R139) has taken a value computed from the registers as it sees them. -/
def Regs.updateTarget (n : Nat) (new : Regs → Word) (w : Regs) : Regs :=
  if n % 4 = 0 then { w with a := new (w.rotateTo .a) }
  else if n % 4 = 1 then { w with d := new (w.rotateTo .d) }
  else if n % 4 = 2 then { w with c := new (w.rotateTo .c) }
  else { w with b := new (w.rotateTo .b) }

theorem updateTarget_congr {m n : Nat} (h : m % 4 = n % 4) (new : Regs → Word) (w : Regs) :
    w.updateTarget m new = w.updateTarget n new := by
  rw [Regs.updateTarget, h, Regs.updateTarget]

theorem set_targetOf_tselOf (new : Regs → Word) (i : BitVec 6) (w : Regs) :
    w.set (targetOf (tselOf i)) (new (w.rotateTo (targetOf (tselOf i)))) = w.updateTarget i.toNat new := by
  rw [targetOf_tselOf, Regs.updateTarget]
  split_ifs <;> rfl

theorem getD_toList_eq_getElem! (X : Vector Word 16) (k : Nat) : X.toList.getD k 0 = X[k]! := by
  rw [List.getD_eq_getElem?_getD, Vector.getElem?_toList, getElem!_def]
  cases X[k]? <;> rfl

theorem stepValue_eq_mix (fn : Word → Word → Word → Word) (X : Vector Word 16) (i : BitVec 6) (w : Regs) :
    stepValue fn X i w =
      mix fn X[wordIndex i]! (additive i) (shiftAmount i) (w.rotateTo (targetOf (tselOf i))) := by
  rw [← getD_toList_eq_getElem!]
  rfl

/-- STEP of position j of a round (R140), at the word index and the shift amount of the schedule. -/
theorem stepOp_append (fn : Word → Word → Word → Word) (rsel : BitVec 2) (j : BitVec 4) (s : State) {k amount : Nat}
    (hk : wordIndex (rsel ++ j) = k) (hamount : shiftAmount (rsel ++ j) = amount) :
    stepOp fn (rsel ++ j) s =
      { s with
        step := rsel ++ j + 1
        work := s.work.updateTarget j.toNat (mix fn s.X[k]! (additive (rsel ++ j)) amount) } := by
  rw [stepOp, stepRegs, stepValue_eq_mix, set_targetOf_tselOf, updateTarget_congr (toNat_append_mod_four rsel j), hk,
    hamount]

/-- A round function run alone takes the arguments of the step that the counter selects (R139). -/
theorem roundOp_eq (fn : Word → Word → Word → Word) (s : State) :
    roundOp fn s =
      { s with
        fval :=
          if s.step.toNat % 4 = 0 then fn s.work.b s.work.c s.work.d
          else if s.step.toNat % 4 = 1 then fn s.work.a s.work.b s.work.c
          else if s.step.toNat % 4 = 2 then fn s.work.d s.work.a s.work.b
          else fn s.work.c s.work.d s.work.a } := by
  rw [roundOp, targetOf_tselOf]
  split_ifs <;> rfl

end Sys2Proof.Machine

open Sys2Proof Sys2Proof.Machine

/-- Settles O6: FF is STEP of round 1 with F. -/
theorem ffUpdatesItsTarget : Obligations.FfUpdatesItsTarget := by
  unfold Obligations.FfUpdatesItsTarget
  exact fun j s => congrArg Host.Outcome.next
    (stepOp_append fnF 0b00 j s (wordIndex_append 0b00 j) (shiftAmount_append 0b00 j))

/-- Settles O7: GG is STEP of round 2 with G. -/
theorem ggUpdatesItsTarget : Obligations.GgUpdatesItsTarget := by
  unfold Obligations.GgUpdatesItsTarget
  exact fun j s => congrArg Host.Outcome.next
    (stepOp_append fnG 0b01 j s (wordIndex_append 0b01 j) (shiftAmount_append 0b01 j))

/-- Settles O8: HH is STEP of round 3 with H. -/
theorem hhUpdatesItsTarget : Obligations.HhUpdatesItsTarget := by
  unfold Obligations.HhUpdatesItsTarget
  exact fun j s => congrArg Host.Outcome.next
    (stepOp_append fnH 0b10 j s (wordIndex_append 0b10 j) (shiftAmount_append 0b10 j))

/-- Settles O9: II is STEP of round 4 with I. -/
theorem iiUpdatesItsTarget : Obligations.IiUpdatesItsTarget := by
  unfold Obligations.IiUpdatesItsTarget
  exact fun j s => congrArg Host.Outcome.next
    (stepOp_append fnI 0b11 j s (wordIndex_append 0b11 j) (shiftAmount_append 0b11 j))

/-- Settles O10: each is `roundOp` of its function, whose arguments follow the target. -/
theorem roundFunctionInstructionsComplete : Obligations.RoundFunctionInstructionsComplete := by
  unfold Obligations.RoundFunctionInstructionsComplete
  exact fun s => ⟨congrArg Host.Outcome.next (roundOp_eq fnF s), congrArg Host.Outcome.next (roundOp_eq fnG s),
    congrArg Host.Outcome.next (roundOp_eq fnH s), congrArg Host.Outcome.next (roundOp_eq fnI s)⟩

end

section
/-! Block compression (42_round_pipeline.md R145 to R148): COMPRESS as the run of the 64 STEP words, and the simulation
between the steps and the rotating form, which renames the registers so that the target is always a. -/

namespace Sys2Proof.Safety

open Sys2Proof.Machine

/-! ### The run of the STEP words -/

theorem execAll_map_decodeStep (l : List Nat) (s : State) :
    execAll (l.map fun i => decodeStep (BitVec.ofNat 6 i)) s =
      .next (l.foldl (fun t i => stepDispatch (BitVec.ofNat 6 i) t) s) := by
  induction l generalizing s with
  | nil => rfl
  | cons i l ih => rw [List.map_cons, execAll, exec_decodeStep, List.foldl_cons, ← ih]

theorem execAll_range_decodeStep (n : Nat) (s : State) :
    execAll ((List.range n).map fun i => decodeStep (BitVec.ofNat 6 i)) s = .next (runSteps n s) := by
  rw [execAll_map_decodeStep, runSteps, countUp_eq_foldl]

/-! ### The rotating form -/

/-- A write to the register t, seen from the register before it: every register moves on by one place. -/
theorem rotateTo_set {t t' : Reg} (h : t'.succ = t) (v : Word) (w : Regs) :
    (w.set t v).rotateTo t' = { a := (w.rotateTo t).d, b := v, c := (w.rotateTo t).b, d := (w.rotateTo t).c } := by
  subst h
  cases t' <;> rfl

theorem rotatingStep_eq_mix (words : Nat → Word) (i : Nat) (v : Regs) :
    let n := BitVec.ofNat 6 i
    rotatingStep words i v =
      { a := v.d
        b := mix (roundFn (rselOf n)) (words (wordIndex n)) (additive n) (shiftAmount n) v
        c := v.b
        d := v.c } := by
  intro n
  rw [mix, BitVec.add_comm]
  rfl

theorem getElem!_ofFn (words : Nat → Word) {k : Nat} (hk : k < 16) :
    (Vector.ofFn fun k : Fin 16 => words k.val)[k]! = words k := by
  simp [hk]

/-- Seen from its target, a step is an iteration of the rotating form. -/
theorem rotatingStep_rotateTo (words : Nat → Word) (i : Nat) (w : Regs) :
    let n := BitVec.ofNat 6 i
    rotatingStep words i (w.rotateTo (targetOf (tselOf n))) =
      (stepRegs (roundFn (rselOf n)) (Vector.ofFn fun k => words k.val) n w).rotateTo (targetOf (tselOf (n + 1))) := by
  intro n
  rw [stepRegs, rotateTo_set (succ_targetOf_tselOf_add_one n), stepValue_eq_mix, getElem!_ofFn words (wordIndex_lt n),
    rotatingStep_eq_mix]

theorem foldl_rotatingStep (words : Nat → Word) (n : Nat) (w : Regs) :
    (List.range n).foldl (fun v i => rotatingStep words i v) w =
      (stepsOn (Vector.ofFn fun k => words k.val) n w).rotateTo (targetOf (tselOf (BitVec.ofNat 6 n))) := by
  induction n with
  | zero => rfl
  | succ n ih =>
    rw [List.range_succ, List.foldl_append, ih, List.foldl_cons, List.foldl_nil, rotatingStep_rotateTo, BitVec.ofNat_add]
    rfl

theorem rotateTo_a (w : Regs) : w.rotateTo .a = w := rfl

/-- After 64 steps the target is a again, and the two forms agree register by register. -/
theorem rotatingBlock_eq_blockRegs (b : Nat) (s : State) :
    rotatingBlock (fun k => s.W (16 * b + k)) s.chain = s.chain.add (blockRegs b s) := by
  have htarget : targetOf (tselOf (BitVec.ofNat 6 64)) = .a := by decide
  rw [rotatingBlock, foldl_rotatingStep, htarget, rotateTo_a, blockRegs, blockAt]

end Sys2Proof.Safety

open Sys2Proof Sys2Proof.Machine Sys2Proof.Safety

/-- Settles O11: the STEP words run the steps, and a block compression is that run, then the accumulation. -/
theorem compressRunsTheSixtyFourSteps : Obligations.CompressRunsTheSixtyFourSteps := by
  unfold Obligations.CompressRunsTheSixtyFourSteps
  intro s hlt
  refine ⟨runSteps 64 (loadBlock s.blkidx.toNat s), execAll_range_decodeStep 64 _, ?_⟩
  rw [exec_compress_block hlt, compressNext, compressBlock_eq_steps, accumulate, runSteps_eq]
  rfl

/-- Settles O12: the simulation of the steps by the rotating form, over the 64 steps of a block. -/
theorem compressIsTheRotatingForm : Obligations.CompressIsTheRotatingForm := by
  unfold Obligations.CompressIsTheRotatingForm
  intro s hlt
  refine ⟨complete (compressNext s), exec_compress_block hlt, ?_, rfl⟩
  rw [complete_chain, compressNext_chain, rotatingBlock_eq_blockRegs]

end

section
/-! The arithmetic primitives (43_arith_primitives.md R170, R172): the two operations as the library's, and the bits of a
rotation. -/

namespace Sys2Proof.Machine

theorem toNat_add32 (x y : Word) : (add32 x y).toNat = (x.toNat + y.toNat) % 2 ^ 32 :=
  BitVec.toNat_add x y

theorem rotl32_eq_rotateLeft (v : Word) (s : Nat) : rotl32 v s = v.rotateLeft s :=
  BitVec.rotateLeft_def.symm

/-- The low s mod 32 bits are the operand's top bits, wrapped around; the others are shifted up. -/
theorem getLsbD_rotl32 (v : Word) (s : Nat) {n : Nat} (hn : n < 32) :
    (rotl32 v s).getLsbD n = v.getLsbD ((n + (32 - s % 32)) % 32) := by
  rw [rotl32_eq_rotateLeft, BitVec.getLsbD_rotateLeft]
  by_cases hwrap : n < s % 32
  · have hbit : (n + (32 - s % 32)) % 32 = 32 - s % 32 + n := by omega
    rw [hbit, decide_eq_true hwrap, cond_true]
  · have hbit : (n + (32 - s % 32)) % 32 = n - s % 32 := by omega
    rw [hbit, decide_eq_false hwrap, cond_false, decide_eq_true hn, Bool.true_and]

end Sys2Proof.Machine

open Sys2Proof Sys2Proof.Machine

/-- Settles O1: ADD32 is the addition of machine words. -/
theorem add32IsSumModulo : Obligations.Add32IsSumModulo := by
  unfold Obligations.Add32IsSumModulo
  exact toNat_add32

/-- Settles O2: a bit below the amount wraps around, and any other is shifted up. -/
theorem rotl32MovesEveryBit : Obligations.Rotl32MovesEveryBit := by
  unfold Obligations.Rotl32MovesEveryBit
  exact fun v s _ hn => getLsbD_rotl32 v s hn

end

section
/-! The hex encoder (44_hex_encoder.md R180 to R183): a character of HEX is the digit of a nibble of a register. -/

namespace Sys2Proof.Machine

/-! ### One digit -/

/-- The codes of the digits 10 to 15 follow 0x61, which is 0x57 + 10 (R181). -/
theorem hexdig_eq_ite (n : BitVec 4) :
    hexdig n = if n.toNat < 10 then BitVec.ofNat 8 (0x30 + n.toNat) else BitVec.ofNat 8 (0x57 + n.toNat) := by
  rw [hexdig]
  by_cases h : n.toNat < 10
  · rw [if_pos h, if_pos h]
  · rw [if_neg h, if_neg h, show 0x61 + (n.toNat - 10) = 0x57 + n.toNat by omega]

theorem toNat_hexdig_lowercase (n : BitVec 4) :
    (0x30 ≤ (hexdig n).toNat ∧ (hexdig n).toNat ≤ 0x39)
      ∨ (0x61 ≤ (hexdig n).toNat ∧ (hexdig n).toNat ≤ 0x66) := by
  have hn : n.toNat < 16 := n.isLt
  rw [hexdig_eq_ite]
  by_cases h : n.toNat < 10
  · rw [if_pos h, BitVec.toNat_ofNat]
    omega
  · rw [if_neg h, BitVec.toNat_ofNat]
    omega

/-! ### One character -/

/-- Four bits of byte j of a register are bits of the register. -/
theorem extractLsb'_byteOfWord (w : Word) (j : Nat) {lo : Nat} (hlo : lo ≤ 4) :
    (byteOfWord w j).extractLsb' lo 4 = w.extractLsb' (8 * j + lo) 4 := by
  refine BitVec.eq_of_getLsbD_eq fun i hi => ?_
  rw [BitVec.getLsbD_extractLsb', getLsbD_byteOfWord, BitVec.getLsbD_extractLsb',
    decide_eq_true (by omega : lo + i < 8), Bool.true_and, Nat.add_assoc]

/-- A nibble of byte j of a register, as a number. -/
theorem toNat_nibble_byteOfWord (w : Word) (j : Nat) {lo : Nat} (hlo : lo ≤ 4) :
    ((byteOfWord w j).extractLsb' lo 4).toNat = w.toNat / 2 ^ (8 * j + lo) % 16 := by
  rw [extractLsb'_byteOfWord w j hlo, BitVec.extractLsb'_toNat, Nat.shiftRight_eq_div_pow]

theorem Regs.nth_eq_getD (x : Regs) {r : Nat} (hr : r < 4) : x.nth r = [x.a, x.b, x.c, x.d].getD r 0 := by
  interval_cases r <;> rfl

/-- Whichever nibble it renders, a character is a digit. -/
theorem exists_hexChar_eq_hexdig (x : Regs) (m : Nat) : ∃ n, hexChar x m = hexdig n := by
  rw [hexChar]
  split
  · exact ⟨_, rfl⟩
  · exact ⟨_, rfl⟩

theorem hexChar_high (x : Regs) (r : Nat) {j : Nat} (hj : j < 4) :
    hexChar x (8 * r + 2 * j) = hexdig ((byteOfWord (x.nth r) j).extractLsb' 4 4) := by
  rw [hexChar, if_pos (by omega), show (8 * r + 2 * j) / 8 = r by omega, show (8 * r + 2 * j) % 8 / 2 = j by omega]

theorem hexChar_low (x : Regs) (r : Nat) {j : Nat} (hj : j < 4) :
    hexChar x (8 * r + 2 * j + 1) = hexdig ((byteOfWord (x.nth r) j).extractLsb' 0 4) := by
  rw [hexChar, if_neg (by omega), show (8 * r + 2 * j + 1) / 8 = r by omega,
    show (8 * r + 2 * j + 1) % 8 / 2 = j by omega]

/-! ### The 32 characters -/

@[simp] theorem getElem_foldHex (x : Regs) {m : Nat} (hm : m < 32) : (foldHex x)[m] = hexChar x m :=
  Vector.getElem_ofFn hm

theorem getElem!_foldHex (x : Regs) {m : Nat} (hm : m < 32) : (foldHex x)[m]! = hexChar x m := by
  rw [getElem!_pos (foldHex x) m hm, getElem_foldHex]

theorem digestMessage_hex (s : State) : (digestMessage s).hex = foldHex (digestMessage s).chain := rfl

/-- FOLD, and a DIGEST that fits, leave HEX the fold of A to D (R196, R197). -/
theorem hex_eq_foldHex_of_exec {s t : State}
    (h : exec .fold s = .next t ∨ (exec .digest s = .next t ∧ Safety.Fits s)) :
    t.hex = foldHex t.chain := by
  rcases h with hfold | ⟨hdigest, hfits⟩
  · cases hfold
    rfl
  · rw [exec_digest_fits hfits] at hdigest
    cases hdigest
    rw [complete_hex, complete_chain, digestMessage_hex]

end Sys2Proof.Machine

open Sys2Proof Sys2Proof.Machine

/-- Settles O17: HEX is the fold of A to D, and each of its characters is a digit. -/
theorem hexIsLowercaseHexadecimal : Obligations.HexIsLowercaseHexadecimal := by
  unfold Obligations.HexIsLowercaseHexadecimal
  intro s t h m
  obtain ⟨n, hn⟩ := exists_hexChar_eq_hexdig t.chain m.val
  rw [hex_eq_foldHex_of_exec h, getElem_foldHex, hn]
  exact toNat_hexdig_lowercase n

/-- Settles O16: the two characters of byte j of register r are the digits of its nibbles. -/
theorem foldRendersTheRegisters : Obligations.FoldRendersTheRegisters := by
  unfold Obligations.FoldRendersTheRegisters
  intro s
  refine ⟨complete (foldDigest s), rfl, rfl, fun r j => ?_⟩
  have hr := r.isLt
  have hj := j.isLt
  rw [complete_hex, foldDigest_hex, getElem!_foldHex _ (by omega), getElem!_foldHex _ (by omega), hexChar_high _ _ hj,
    hexChar_low _ _ hj, hexdig_eq_ite, hexdig_eq_ite, toNat_nibble_byteOfWord _ _ le_rfl,
    toNat_nibble_byteOfWord _ _ (Nat.zero_le 4), Regs.nth_eq_getD _ hr]
  exact ⟨rfl, rfl⟩

end

section
/-! DIGEST as the staged commands (45_commands.md R193 to R199): its block loop is one block compression after another,
which on the word array of `pack` is the reference digest, and which the command COMPRESS runs one at a time. -/

namespace Sys2Proof.Safety

open Sys2Proof.Machine

/-! ### The reference digest reads the words of its blocks only -/

theorem rotatingBlock_congr {words words' : Nat → Word} (h : ∀ k < 16, words k = words' k) (r : Regs) :
    rotatingBlock words r = rotatingBlock words' r := by
  have hvec : (Vector.ofFn fun k : Fin 16 => words k.val) = Vector.ofFn fun k => words' k.val :=
    congrArg Vector.ofFn (funext fun k => h k.val k.isLt)
  rw [rotatingBlock, rotatingBlock, foldl_rotatingStep, foldl_rotatingStep, hvec]

theorem md5Chain_congr {words words' : Nat → Word} {nb : Nat} (h : ∀ n < 16 * nb, words n = words' n) :
    md5Chain words nb = md5Chain words' nb := by
  refine List.foldl_ext _ _ _ fun r b hb => rotatingBlock_congr (fun k hk => h _ ?_) r
  have hlt : b < nb := List.mem_range.1 hb
  omega

/-! ### One block compression after another -/

theorem W_iterate_compressNext (k : Nat) (s : State) (n : Nat) : (compressNext^[k] s).W n = s.W n := by
  induction k with
  | zero => rfl
  | succ k ih => rw [Function.iterate_succ_apply', ← ih]; rfl

theorem blkidx_iterate_compressNext (k : Nat) (s : State) :
    (compressNext^[k] s).blkidx = s.blkidx + BitVec.ofNat 16 k := by
  induction k with
  | zero => exact (BitVec.add_zero _).symm
  | succ k ih => rw [Function.iterate_succ_apply', compressNext_blkidx, ih, BitVec.add_assoc, BitVec.ofNat_add]; rfl

/-- From BLKIDX = 0 and IV, block compressions are the reference chain over the words of WMEM. -/
theorem chain_iterate_compressNext {s : State} (hchain : s.chain = iv) (hblkidx : s.blkidx = 0) {k : Nat}
    (hk : k < 2 ^ 16) : (compressNext^[k] s).chain = md5Chain s.W k := by
  induction k with
  | zero => exact hchain
  | succ k ih =>
    have hindex : (compressNext^[k] s).blkidx.toNat = k := by
      rw [blkidx_iterate_compressNext, hblkidx, zero_add, BitVec.toNat_ofNat, Nat.mod_eq_of_lt (by omega)]
    rw [Function.iterate_succ_apply', compressNext_chain, hindex, ← rotatingBlock_eq_blockRegs, ih (by omega), md5Chain,
      md5Chain, List.range_succ, List.foldl_append]
    simp only [W_iterate_compressNext, List.foldl_cons, List.foldl_nil]

/-! ### The body of DIGEST -/

/-- The loop of DIGEST runs one block compression for each block that `pack` counts, up to BLKIDX = NBLK. -/
theorem compressAll_packMessage (s : State) :
    let u := packMessage (loadIv s)
    compressAll u.nblk.toNat u = compressNext^[u.nblk.toNat] u ∧ (compressAll u.nblk.toNat u).blkidx = u.nblk :=
  compressAll_eq _ _ (Nat.zero_add _)

theorem nblk_digestMessage (s : State) : (digestMessage s).nblk = (packMessage s).nblk := by
  rw [digestMessage, foldDigest_nblk, compressAll_frame]
  rfl

theorem blkidx_digestMessage (s : State) : (digestMessage s).blkidx = (digestMessage s).nblk :=
  (compressAll_packMessage s).2.trans (nblk_digestMessage s).symm

/-- The body of DIGEST changes A to D, HEX, memory, NBLK, BLKIDX, DONE and the internals of the pipeline only. -/
theorem digestMessage_changes (s : State) :
    digestMessage s =
      { s with
        chain := (digestMessage s).chain, hex := (digestMessage s).hex, mem := (digestMessage s).mem
        nblk := (digestMessage s).nblk, blkidx := (digestMessage s).blkidx, work := (digestMessage s).work
        X := (digestMessage s).X, step := (digestMessage s).step, done := true } := by
  have hloop := compressAll_frame (packMessage (loadIv s)).nblk.toNat (packMessage (loadIv s))
  rw [digestMessage, hloop]
  rfl

theorem chain_digestMessage {s : State} (hp : s.params.Legal) (hfits : Fits s) :
    (digestMessage s).chain = md5Regs (messageOf s) := by
  have hblocks : (packMessage (loadIv s)).nblk.toNat = blockCount s.len.toNat := toNat_nblk_packMessage hp hfits
  have hwords : ∀ n < 16 * blockCount s.len.toNat,
      (packMessage (loadIv s)).W n = listWord (paddedBytes (messageOf s)) n := fun _ hn => W_packMessage hp hfits hn
  rw [digestMessage, foldDigest_chain, (compressAll_packMessage s).1, hblocks,
    chain_iterate_compressNext rfl rfl (blockCount_lt hp hfits), md5Chain_congr hwords, md5Regs, length_messageOf]

/-! ### The staged commands -/

theorem execAll_cons {instr : Instr} {s t : State} (h : exec instr s = .next t) (l : List Instr) :
    execAll (instr :: l) s = execAll l t := by
  rw [execAll, h]

theorem execAll_append {l : List Instr} {s t : State} (h : execAll l s = .next t) (l' : List Instr) :
    execAll (l ++ l') s = execAll l' t := by
  induction l generalizing s with
  | nil => cases h; rfl
  | cons instr l ih =>
    rw [execAll] at h
    rw [List.cons_append, execAll]
    split at h
    next u hu => exact ih h
    next => cases h
    next => cases h

/-- COMPRESS as often as blocks are left is as many block compressions. -/
theorem execAll_replicate_compress {k : Nat} {s : State} (h : s.blkidx.toNat + k ≤ s.nblk.toNat) :
    execAll (List.replicate k .compress) (complete s) = .next (complete (compressNext^[k] s)) := by
  induction k generalizing s with
  | zero => rfl
  | succ k ih =>
    have hlt : (complete s).blkidx < (complete s).nblk := by
      rw [complete_blkidx, complete_nblk, BitVec.lt_def]
      omega
    have hnext : (compressNext s).blkidx.toNat + k ≤ (compressNext s).nblk.toNat := by
      have hn := s.nblk.isLt
      have hone : (1 : BitVec 16).toNat = 1 := rfl
      rw [compressNext_blkidx, compressNext_nblk, BitVec.toNat_add]
      omega
    rw [List.replicate_succ, execAll_cons (exec_compress_block hlt), Function.iterate_succ_apply]
    exact ih hnext

end Sys2Proof.Safety

open Sys2Proof Sys2Proof.Machine Sys2Proof.Safety

/-- Settles O23: the block loop on the packed words is the reference chain of the padded message. -/
theorem digestComputesMd5 : Obligations.DigestComputesMd5 := by
  unfold Obligations.DigestComputesMd5
  intro s hp hfits
  have hchain : (complete (digestMessage s)).chain = md5Regs (messageOf s) := chain_digestMessage hp hfits
  have hnblk : (complete (digestMessage s)).nblk.toNat = blockCount s.len.toNat := by
    rw [complete_nblk, nblk_digestMessage, toNat_nblk_packMessage hp hfits]
  refine ⟨complete (digestMessage s), exec_digest_fits hfits, hchain, ?_, congrArg complete (digestMessage_changes s),
    hnblk, blkidx_digestMessage s, fun a ha => ?_⟩
  · rw [← hchain, complete_hex, digestMessage_hex, complete_chain]
  · rw [hnblk] at ha
    obtain ⟨-, hepoch, hmem⟩ := digestMessage_len_epoch_mem s
    rw [byteAt_complete, State.byteAt, hepoch, hmem, ← State.byteAt, byteAt_packMessage hp hfits, if_neg ha]

/-- Settles O24: INIT and PACK reach the start of DIGEST's block loop, each COMPRESS is one of its rounds, and FOLD is
its end. -/
theorem digestEqualsTheStagedCommands : Obligations.DigestEqualsTheStagedCommands := by
  unfold Obligations.DigestEqualsTheStagedCommands
  intro s hp hfits
  have hblocks : (packMessage (loadIv s)).nblk.toNat = blockCount s.len.toNat := toNat_nblk_packMessage hp hfits
  have hpack : exec .pack (complete (loadIv s)) = .next (complete (packMessage (loadIv s))) := exec_pack_fits hfits
  have hstart : execAll [.init, .pack] s = .next (complete (packMessage (loadIv s))) := execAll_cons hpack []
  have hroom : (packMessage (loadIv s)).blkidx.toNat + blockCount s.len.toNat ≤ (packMessage (loadIv s)).nblk.toNat :=
    (Nat.zero_add _).trans_le hblocks.ge
  rw [exec_digest_fits hfits, digestMessage, (compressAll_packMessage s).1, hblocks, List.append_assoc,
    execAll_append hstart, ← blockCount, execAll_append (execAll_replicate_compress hroom)]
  rfl

end

section
/-! The dispatch of commands (45_commands.md R190 to R198): a CMD write issues what its OP field decodes to, the
engine's turn completes the command of its phase, and a placed word is the next instruction run. -/

namespace Sys2Proof.Machine

/-! ### Commands and their instructions -/

theorem commandOf_instrOf (c : Command) : commandOf (instrOf c) = some c := by
  cases c <;> rfl

theorem eq_instrOf_of_commandOf {instr : Instr} {c : Command} (h : commandOf instr = some c) : instr = instrOf c := by
  cases instr <;> cases h <;> rfl

/-- A code of a command decodes to its instruction, whatever bits [31:4] are (30_encoding.md R86, R88). -/
theorem decodeCmd_of_and_0xF {v : Word} {c : Command} (h : v &&& 0xF = opCode c) : decodeCmd v = instrOf c := by
  have hmask : opCode c = opCode c &&& 0xF := by cases c <;> rfl
  rw [decodeCmd, and_0xF_eq_iff.1 (h.trans hmask)]
  cases c <;> rfl

theorem toNat_and_0xF (v : Word) : (v &&& 0xF).toNat = (v.extractLsb' 0 4).toNat := by
  rw [and_0xF]
  exact (BitVec.toNat_append 0#28 _).trans (by simp)

/-- The code of a CMD word that is no command's is a reserved one. -/
theorem commandOf_decodeOp_eq_none_iff (op : BitVec 4) : commandOf (decodeOp op) = none ↔ 6 ≤ op.toNat := by
  revert op; decide

/-- An OP value that is no command is an instruction of a reserved row, which raises ILLEGAL_CMD (R198). -/
theorem exec_decodeOp_reserved {op : BitVec 4} (h : commandOf (decodeOp op) = none) (s : State) :
    exec (decodeOp op) s = .next (raiseError .illegalCmd s) := by
  have hrow : ∀ op, commandOf (decodeOp op) = none → decodeOp op = .reserved67 op ∨ decodeOp op = .reserved8F op := by
    decide
  rcases hrow op h with h67 | h8F
  · rw [h67]; rfl
  · rw [h8F]; rfl

theorem commandOf_decodeStep (i : BitVec 6) : commandOf (decodeStep i) = none := by
  revert i; decide

theorem commandOf_decodeFsel (sel : BitVec 2) : commandOf (decodeFsel sel) = none := by
  revert sel; decide

/-! ### CMD writes -/

theorem issueCommand_command {v : Word} {c : Command} (h : commandOf (decodeCmd v) = some c) (s : State) :
    issueCommand v s = accept c s := by
  rw [issueCommand, h]

theorem issueCommand_reserved {v : Word} (h : commandOf (decodeCmd v) = none) (s : State) :
    issueCommand v s = raiseError .illegalCmd s := by
  rw [issueCommand, h]

/-- In phase IDLE a CMD write is performed: its command is issued (R190). -/
theorem step_cmdWrite {s : State} {v : Word} {rest : List Event} (hidle : s.phase = .idle)
    (h : s.sched = .write (busAddr s.params 0x000) 4 v :: rest) :
    step s = .next (issueCommand v { s with sched := rest }) := by
  have hl : legal s.params 0x000 4 := legal_register _ (by omega) rfl
  rw [step_write (by omega) h, memWrite_of_idle (s := { s with sched := rest }) v hidle hl (.inl rfl), writeIdle,
    if_pos rfl]

/-- The CMD write of a reserved code runs that code's instruction at once (R198). -/
theorem step_cmdWrite_reserved {s : State} {v : Word} {rest : List Event} (hidle : s.phase = .idle)
    (h : s.sched = .write (busAddr s.params 0x000) 4 v :: rest) (hnone : commandOf (decodeCmd v) = none) :
    step s = exec (decodeCmd v) { s with sched := rest } := by
  rw [step_cmdWrite hidle h, issueCommand_reserved hnone, decodeCmd, exec_decodeOp_reserved hnone]

theorem doneAfterAccept_eq_ite (c : Command) (done : Bool) :
    doneAfterAccept c done = if c = .nop then done else false := by
  cases c <;> rfl

/-! ### The engine's turn -/

theorem engineTurn_of_idle {s : State} (h : s.phase = .idle) : engineTurn s = .next s := by
  rw [engineTurn, h]

theorem engineTurn_of_exec {s : State} {c : Command} (h : s.phase = .exec c) : engineTurn s = exec (instrOf c) s := by
  rw [engineTurn, h]

theorem step_engine {s : State} {rest : List Event} (h : s.sched = .engine :: rest) :
    step s = engineTurn { s with sched := rest } := step_of_event h

/-! ### Decoding -/

/-- The four bytes of a CMD word decode to the instruction of its OP field. -/
theorem decode_cmd_word (w : Word) :
    decode .cmd [byteOfWord w 0, byteOfWord w 1, byteOfWord w 2, byteOfWord w 3] = .ok (decodeCmd w) := by
  rw [decode, wordOfBytes_byteOfWord]

theorem decode_step_setWidth (i : BitVec 6) : decode .step [i.setWidth 8] = .ok (decodeStep i) := by
  have hbyte : i.setWidth 8 = 0#2 ++ i := BitVec.setWidth_eq_append (by decide)
  rw [hbyte, decode_step_byte]

theorem decode_fsel_setWidth (sel : BitVec 2) : decode .fsel [sel.setWidth 8] = .ok (decodeFsel sel) := by
  have hbyte : sel.setWidth 8 = 0#6 ++ sel := BitVec.setWidth_eq_append (by decide)
  rw [hbyte, decode_fsel_byte]

/-- A number that is a byte of n bits, the bits above being 0, has those n bits. -/
theorem eq_ofNat_of_zero_append {m n w : Nat} {x : BitVec n} (h : BitVec.ofNat (m + n) w = 0#m ++ x) :
    x = BitVec.ofNat n w := by
  rw [← BitVec.setWidth_ofNat_of_le (Nat.le_add_left n m), h, BitVec.setWidth_append_eq_right]

/-- A table word decodes to the instruction of the CMD, STEP or FSEL word with its number. -/
theorem decodeTableWord_cases {nbits w : Nat} {instr : Instr} (h : decodeTableWord nbits w = some instr) :
    instr = decodeCmd (BitVec.ofNat 32 w) ∨ instr = decodeStep (BitVec.ofNat 6 w)
      ∨ instr = decodeFsel (BitVec.ofNat 2 w) := by
  have hok : decode (tableFormat nbits w) (tableBytes (tableFormat nbits w) w) = .ok instr := by
    unfold decodeTableWord at h
    split at h
    next hd => rw [hd, Option.some.inj h]
    next => cases h
  rcases decode_cases hok with ⟨hfmt, -⟩ | ⟨hfmt, i, rfl, hbytes⟩ | ⟨hfmt, sel, rfl, hbytes⟩
  · rw [hfmt] at hok
    exact .inl (Except.ok.inj (hok.symm.trans (decode_cmd_word _)))
  · rw [hfmt] at hbytes
    exact .inr (.inl (congrArg decodeStep (eq_ofNat_of_zero_append (m := 2) (List.cons.inj hbytes).1)))
  · rw [hfmt] at hbytes
    exact .inr (.inr (congrArg decodeFsel (eq_ofNat_of_zero_append (m := 6) (List.cons.inj hbytes).1)))

/-! ### Placed words -/

section
variable {s : State} {nbits w : Nat} {instr : Instr} (h : decodeTableWord nbits w = some instr)
include h

theorem withFetchWord_command {c : Command} (hc : commandOf instr = some c) :
    s.withFetchWord nbits w = { accept c s with sched := .engine :: s.sched } := by
  rw [State.withFetchWord, h]
  simp only [hc]

theorem withFetchWord_cmd (hnone : commandOf instr = none) (hformat : instr.format = .cmd) :
    s.withFetchWord nbits w =
      { s with phase := .idle, sched := .write (busAddr s.params 0x000) 4 (BitVec.ofNat 32 w) :: s.sched } := by
  rw [State.withFetchWord, h]
  simp only [hnone, hformat]

theorem withFetchWord_step (hnone : commandOf instr = none) (hformat : instr.format = .step) :
    s.withFetchWord nbits w = { s with sched := .stepWord (BitVec.ofNat 6 w) :: s.sched } := by
  rw [State.withFetchWord, h]
  simp only [hnone, hformat]

theorem withFetchWord_fsel (hnone : commandOf instr = none) (hformat : instr.format = .fsel) :
    s.withFetchWord nbits w = { s with sched := .fselWord (BitVec.ofNat 2 w) :: s.sched } := by
  rw [State.withFetchWord, h]
  simp only [hnone, hformat]

end

end Sys2Proof.Machine

open Sys2Proof Sys2Proof.Machine

/-- Settles O14: the body of NOP is empty, so what is left is its completion. -/
theorem nopChangesOnlyThePhase : Obligations.NopChangesOnlyThePhase := by
  unfold Obligations.NopChangesOnlyThePhase
  exact fun _ => rfl

/-- Settles O15: the body of INIT is `loadIv`, and IV is the four words of R137. -/
theorem initLoadsTheInitialValues : Obligations.InitLoadsTheInitialValues := by
  unfold Obligations.InitLoadsTheInitialValues
  exact fun _ => rfl

/-- Settles O25: both rows of reserved codes are the error primitive, whichever the code is. -/
theorem reservedCodesRaiseIllegalCmd : Obligations.ReservedCodesRaiseIllegalCmd := by
  unfold Obligations.ReservedCodesRaiseIllegalCmd
  intro op s
  rw [← raiseError_eq]
  exact ⟨fun _ => rfl, fun _ => rfl⟩

/-- Settles O27: the write is performed, and its OP field is that of a command or is reserved. -/
theorem cmdWriteIssuesTheCommand : Obligations.CmdWriteIssuesTheCommand := by
  unfold Obligations.CmdWriteIssuesTheCommand
  intro s v rest hidle hw
  rw [step_cmdWrite hidle hw]
  refine ⟨fun c hcode => ?_, fun hcode => ?_⟩
  · have hc : commandOf (decodeCmd v) = some c := by rw [decodeCmd_of_and_0xF hcode, commandOf_instrOf]
    rw [issueCommand_command hc, accept, doneAfterAccept_eq_ite]
  · rw [toNat_and_0xF] at hcode
    have hnone : commandOf (decodeCmd v) = none := (commandOf_decodeOp_eq_none_iff _).2 hcode
    rw [issueCommand_reserved hnone, raiseError_eq]

/-- Settles O38: a CMD write issues the decoded instruction, and the engine's turn is that of the phase it set. -/
theorem stepRunsTheDecodedInstruction : Obligations.StepRunsTheDecodedInstruction := by
  unfold Obligations.StepRunsTheDecodedInstruction
  refine ⟨fun s w instr rest hidle hw hdecode => ?_, fun s b instr rest hw hdecode => ?_,
    fun s b instr rest hw hdecode => ?_⟩
  · obtain rfl : decodeCmd w = instr := Except.ok.inj ((decode_cmd_word w).symm.trans hdecode)
    refine ⟨step_cmdWrite_reserved hidle hw, fun c hc => ⟨?_, fun u hphase => ⟨fun hnil => ?_, fun more hcons => ?_⟩⟩⟩
    · rw [step_cmdWrite hidle hw, issueCommand_command hc]
    · rw [step_of_empty hnil, engineTurn_of_exec hphase, eq_instrOf_of_commandOf hc]
    · rw [step_engine hcons, engineTurn_of_exec (s := { u with sched := more }) hphase, eq_instrOf_of_commandOf hc]
  · obtain rfl : decodeStep b = instr := Except.ok.inj ((decode_step_setWidth b).symm.trans hdecode)
    exact step_of_event hw
  · obtain rfl : decodeFsel b = instr := Except.ok.inj ((decode_fsel_setWidth b).symm.trans hdecode)
    exact step_of_event hw

/-- Settles O39: a command is placed as its engine's turn, a reserved code as its CMD write, a STEP or FSEL word as its
event. -/
theorem placedWordRunsNext : Obligations.PlacedWordRunsNext := by
  unfold Obligations.PlacedWordRunsNext
  intro s nbits w instr h
  cases hc : commandOf instr with
  | some c =>
    rw [withFetchWord_command h hc, step_engine rfl, engineTurn_of_exec rfl, eq_instrOf_of_commandOf hc]
    rfl
  | none =>
    rcases decodeTableWord_cases h with rfl | rfl | rfl
    · obtain ⟨-, hformat, -⟩ := decodeOp_row ((BitVec.ofNat 32 w).extractLsb' 0 4)
      rw [withFetchWord_cmd h hc hformat, step_cmdWrite_reserved rfl rfl hc]
      exact congrArg (exec _) (if_pos hformat).symm
    · obtain ⟨-, hformat, -⟩ := decodeStep_row (BitVec.ofNat 6 w)
      rw [withFetchWord_step h hc hformat, step_of_event rfl, perform]
      simp [hformat]
    · obtain ⟨-, hformat, -⟩ := decodeFsel_row (BitVec.ofNat 2 w)
      rw [withFetchWord_fsel h hc hformat, step_of_event rfl, perform]
      simp [hformat]

/-- Settles O40: in phase IDLE the engine's turn has nothing enabled. -/
theorem idleEngineDoesNothing : Obligations.IdleEngineDoesNothing := by
  unfold Obligations.IdleEngineDoesNothing
  intro s hidle
  refine ⟨fun hnil => ?_, fun rest hcons => ?_⟩
  · rw [step_of_empty hnil, engineTurn_of_idle hidle]
  · rw [step_engine hcons, engineTurn_of_idle (s := { s with sched := rest }) hidle]

end

section
/-! The errors of the commands and of the bus (60_exceptions.md R220 to R231): the first one is recorded, or cleared by
a STATUS write, and the machine goes on. -/

namespace Sys2Proof.Machine

/-- A completion that finds an error (R191, R221). -/
theorem complete_raiseError (code : ErrCode) (s : State) :
    complete (raiseError code s) =
      { s with phase := .idle, err := true, ecode := if s.err then s.ecode else code } := by
  rw [raiseError_eq]
  rfl

/-- PACK and DIGEST alike record the error that their check of LEN finds (45_commands.md R194, R197). -/
theorem exec_pack_digest_error {s : State} {code : ErrCode} (h : lengthError s = some code) :
    let t := { s with phase := .idle, err := true, ecode := if s.err then s.ecode else code }
    exec .pack s = .next t ∧ exec .digest s = .next t := by
  rw [exec_pack_error h, exec_digest_error h, complete_raiseError]
  exact ⟨rfl, rfl⟩

/-- While BUSY a legal write to a writable target other than STATUS is dropped (20_memory.md R63). -/
theorem memWrite_of_busy {off n : Nat} {s : State} (v : Word) (hbusy : s.phase ≠ .idle) (hl : legal s.params off n)
    (htarget : off = 0x000 ∨ off = 0x008 ∨ off = 0x00C ∨ off = 0x010 ∨ 0x04000 ≤ off) :
    memWrite off n v s = raiseError .busyWrite s := by
  rw [memWrite, if_pos hl, if_neg (by omega), if_neg (by omega), if_pos (by simp [hbusy])]

/-- A STATUS write clears the error where bit 2 is 1, at any phase (20_memory.md R63, R231). -/
theorem memWrite_status (v : Word) (s : State) :
    memWrite 0x004 4 v s = if v.getLsbD 2 then clearError s else s := by
  rw [memWrite, if_pos (legal_register _ (by decide) (by decide)), if_pos rfl]

/-! ### Nothing stops the machine -/

/-- An instruction that is no command goes on: it records ILLEGAL_CMD, or is one operation of the pipeline. -/
theorem goesOn_exec_of_commandOf_none {instr : Instr} (h : commandOf instr = none) (s : State) :
    Safety.goesOn (exec instr s) := by
  cases instr with
  | nop | init | pack | compress | fold | digest => cases h
  | _ => exact ⟨_, rfl⟩

theorem goesOn_exec_instrOf (c : Command) (s : State) : Safety.goesOn (exec (instrOf c) s) :=
  have ⟨_, h, _⟩ := exec_instrOf c s
  ⟨_, h⟩

theorem goesOn_exec (instr : Instr) (s : State) : Safety.goesOn (exec instr s) := by
  cases h : commandOf instr with
  | some c => exact eq_instrOf_of_commandOf h ▸ goesOn_exec_instrOf c s
  | none => exact goesOn_exec_of_commandOf_none h s

theorem goesOn_engineTurn (s : State) : Safety.goesOn (engineTurn s) := by
  cases h : s.phase with
  | idle => exact ⟨s, engineTurn_of_idle h⟩
  | exec c => exact engineTurn_of_exec h ▸ goesOn_exec_instrOf c s

theorem goesOn_perform (e : Event) (s : State) : Safety.goesOn (perform e s) := by
  cases e with
  | read addr n => exact ⟨_, rfl⟩
  | write addr n v => exact ⟨_, rfl⟩
  | engine => exact goesOn_engineTurn s
  | reset => exact ⟨_, rfl⟩
  | stepWord i => exact goesOn_exec (decodeStep i) s
  | fselWord sel => exact goesOn_exec (decodeFsel sel) s

theorem goesOn_step (s : State) : Safety.goesOn (step s) := by
  cases h : s.sched with
  | nil => exact step_of_empty h ▸ goesOn_engineTurn s
  | cons e rest => exact step_of_event h ▸ goesOn_perform e { s with sched := rest }

end Sys2Proof.Machine

open Sys2Proof.Machine

/-- Settles O13: with BLKIDX at NBLK or above no block is left, so the body is the error. -/
theorem compressWithoutBlockRaisesNoBlock : Obligations.CompressWithoutBlockRaisesNoBlock := by
  unfold Obligations.CompressWithoutBlockRaisesNoBlock
  intro s h
  rw [exec_compress_none (BitVec.not_lt.2 h), complete_raiseError]

/-- Settles O21: the check of LEN finds LEN_RANGE first. -/
theorem lengthOverMemoryRaisesLenRange : Obligations.LengthOverMemoryRaisesLenRange := by
  unfold Obligations.LengthOverMemoryRaisesLenRange
  exact fun _ h => exec_pack_digest_error (lengthError_lenRange h)

/-- Settles O22: the check of LEN finds CAPACITY, as the message itself fits in MSG. -/
theorem tooManyBlocksRaisesCapacity : Obligations.TooManyBlocksRaisesCapacity := by
  unfold Obligations.TooManyBlocksRaisesCapacity
  exact fun _ hlen hblocks => exec_pack_digest_error (lengthError_capacity hlen hblocks)

/-- Settles O28: the dropped write reaches the error record alone. -/
theorem busyWritesAreDropped : Obligations.BusyWritesAreDropped := by
  unfold Obligations.BusyWritesAreDropped
  intro s off n v rest hbusy hoff hw hl htarget
  rw [step_write hoff hw, memWrite_of_busy (s := { s with sched := rest }) v hbusy hl htarget, raiseError_eq]

/-- Settles O30: the STATUS write is tried before the phase is looked at. -/
theorem statusWriteClearsTheError : Obligations.StatusWriteClearsTheError := by
  unfold Obligations.StatusWriteClearsTheError
  intro s v rest hw
  rw [step_write (by decide) hw, memWrite_status]
  rfl

/-- Settles O42: no meaning of an instruction and no event answers a fault or a refusal. -/
theorem nothingStopsTheMachine : Obligations.NothingStopsTheMachine := by
  unfold Obligations.NothingStopsTheMachine
  exact ⟨goesOn_exec, goesOn_step⟩

end

section
/-! A completion and the host's side of the state (45_commands.md R191 to R197, 60_exceptions.md R234): whether a
command's body runs, and what it writes, depends neither on the error record nor on what the host has read. -/

namespace Sys2Proof.Safety

open Sys2Proof.Machine

/-! ### A completion as a check and a body -/

/-- The error that keeps a command's body from running, if any (45_commands.md R192 to R197). -/
def commandError : Command → State → Option ErrCode
  | .pack, s => lengthError s
  | .digest, s => lengthError s
  | .compress, s => if s.blkidx < s.nblk then none else some .noBlock
  | .nop, _ => none
  | .init, _ => none
  | .fold, _ => none

/-- The body of a command that no error keeps from running (45_commands.md R192 to R197). -/
def commandBody : Command → State → State
  | .nop, s => s
  | .init, s => loadIv s
  | .pack, s => packMessage s
  | .compress, s => compressNext s
  | .fold, s => foldDigest s
  | .digest, s => digestMessage s

/-- A completion is the body or, with an error, the record of the error; then the phase is IDLE (R191, R221). -/
theorem exec_instrOf_eq (c : Command) (s : State) :
    exec (instrOf c) s = .next (complete ((commandError c s).elim (commandBody c s) (raiseError · s))) := by
  cases c with
  | nop => rfl
  | init => rfl
  | pack =>
    show execPack s = .next (complete ((lengthError s).elim _ _))
    rw [execPack]
    cases lengthError s <;> rfl
  | compress =>
    by_cases h : s.blkidx < s.nblk
    · rw [commandError, if_pos h]
      exact exec_compress_block h
    · rw [commandError, if_neg h]
      exact exec_compress_none h
  | fold => rfl
  | digest =>
    show execDigest s = .next (complete ((lengthError s).elim _ _))
    rw [execDigest]
    cases lengthError s <;> rfl

/-! ### The host's record -/

/-- A state with what a busy host access changes, the error record, the read log and the draws (20_memory.md R62, R63),
replaced by that of another. -/
def withHostRecordOf (s t : State) : State :=
  { s with err := t.err, ecode := t.ecode, readLog := t.readLog, draws := t.draws }

/-- Two states that differ at most in that record. -/
abbrev SameButHostRecord (s t : State) : Prop := t = withHostRecordOf s t

theorem commandError_withHostRecordOf (c : Command) (s r : State) :
    commandError c (withHostRecordOf s r) = commandError c s := by
  cases c <;> rfl

theorem compressAll_withHostRecordOf (fuel : Nat) (s r : State) :
    compressAll fuel (withHostRecordOf s r) = withHostRecordOf (compressAll fuel s) r := by
  induction fuel generalizing s with
  | zero => rfl
  | succ n ih =>
    rw [compressAll, compressAll, apply_ite (withHostRecordOf · r), ← ih]
    rfl

theorem commandBody_withHostRecordOf (c : Command) (s r : State) :
    commandBody c (withHostRecordOf s r) = withHostRecordOf (commandBody c s) r := by
  cases c with
  | digest =>
    have hblocks := compressAll_withHostRecordOf (packMessage (loadIv s)).nblk.toNat (packMessage (loadIv s)) r
    exact congrArg foldDigest hblocks
  | nop => rfl
  | init => rfl
  | pack => rfl
  | compress => rfl
  | fold => rfl

/-- A completion keeps two such states together: both run the body, or both record the same error. -/
theorem sameButHostRecord_exec_instrOf (c : Command) (s r : State) :
    BothGoOn SameButHostRecord (exec (instrOf c) s) (exec (instrOf c) (withHostRecordOf s r)) := by
  rw [exec_instrOf_eq, exec_instrOf_eq, commandError_withHostRecordOf, commandBody_withHostRecordOf]
  apply bothGoOn_next
  cases commandError c s with
  | none => rfl
  | some code =>
    simp only [Option.elim, complete_raiseError]
    rfl

theorem sameButHostRecord_engineTurn (s r : State) :
    BothGoOn SameButHostRecord (engineTurn s) (engineTurn (withHostRecordOf s r)) := by
  cases h : s.phase with
  | idle =>
    rw [engineTurn_of_idle h, engineTurn_of_idle (s := withHostRecordOf s r) h]
    exact bothGoOn_next rfl
  | exec c =>
    rw [engineTurn_of_exec h, engineTurn_of_exec (s := withHostRecordOf s r) h]
    exact sameButHostRecord_exec_instrOf c s r

theorem sameButHostRecord_step_engine {s : State} {rest : List Event} (h : s.sched = .engine :: rest) (r : State) :
    BothGoOn SameButHostRecord (step s) (step (withHostRecordOf s r)) := by
  rw [step_engine h, step_engine (s := withHostRecordOf s r) h]
  exact sameButHostRecord_engineTurn { s with sched := rest } r

/-! ### A busy host access before the completion -/

/-- While BUSY a host access goes on, and only takes its event off the schedule and adds to the host's record
(R63, R66). -/
theorem step_busy_host {s : State} {e : Event} {rest : List Event} (hbusy : s.phase ≠ .idle) (hs : s.sched = e :: rest)
    (he : (∃ addr n, e = .read addr n) ∨ ∃ addr n v, e = .write addr n v) :
    ∃ r, step s = .next (withHostRecordOf { s with sched := rest } r) := by
  obtain ⟨t, ht⟩ := goesOn_step s
  have hframe : t = withHostRecordOf { s with sched := rest } t :=
    busyHostKeepsTheInputs s t rest hbusy (by simpa [hs] using he) ht
  exact ⟨t, ht.trans (congrArg Host.Outcome.next hframe)⟩

end Sys2Proof.Safety

open Sys2Proof.Machine Sys2Proof.Safety

/-- Settles O51: the access leaves the state but for the host's record, and the completion keeps the two together. -/
theorem resultsDoNotDependOnLatency : Obligations.ResultsDoNotDependOnLatency := by
  unfold Obligations.ResultsDoNotDependOnLatency
  intro s e rest hbusy hs he
  obtain ⟨r, haccess⟩ := step_busy_host hbusy hs he
  obtain ⟨u, t, hu, ht, hsame⟩ := sameButHostRecord_step_engine (s := { s with sched := .engine :: rest }) rfl r
  refine ⟨t, u, ?_, hu, hsame⟩
  rw [run_succ_of_step 1 haccess, run_succ_of_step 0 ht]
  rfl

end

section
/-! Reset, at power-up and as an event (70_reset_and_hazards.md R250, R251). -/

namespace Sys2Proof.Machine

theorem step_reset {s : State} {rest : List Event} (h : s.sched = .reset :: rest) :
    step s = .next (resetEngine { s with sched := rest }) :=
  step_of_event h

/-- Reset clears BUSY, DONE, ERR and ECODE, so every bit of STATUS (R28). -/
@[simp] theorem resetEngine_status (s : State) : (resetEngine s).status = 0 :=
  calc (resetEngine s).status
    _ = State.reset.status := rfl
    _ = 0 := by decide

@[simp] theorem resetEngine_hex_getElem (s : State) (m : Fin 32) : (resetEngine s).hex[m.val] = 0x00 :=
  Vector.getElem_replicate m.isLt

/-- No offset is listed after reset, so each one reads as the free contents of the new epoch. -/
@[simp] theorem resetEngine_byteAt (s : State) (a : Nat) :
    (resetEngine s).byteAt a = Config.memInit (s.epoch + 1) a := rfl

end Sys2Proof.Machine

namespace Sys2Proof.Safety

open Sys2Proof.Machine

/-- At reset the parameters are the defaults, memory lists nothing, and DONE, ERR and the indices are 0. -/
theorem inv_reset : Inv State.reset where
  params := by decide
  memory := List.Pairwise.nil
  cells  := nofun
  nblk   := Nat.zero_le _
  blkidx := Nat.zero_le _
  ecode  := ⟨fun _ => rfl, fun _ => rfl⟩
  digest := nofun
  busy   := nofun

end Sys2Proof.Safety

open Sys2Proof.Machine

/-- Settles O41: the step is `resetEngine` on the state without the event, and each of its fields is the reset state's. -/
theorem resetGivesTheResetState : Obligations.ResetGivesTheResetState := by
  unfold Obligations.ResetGivesTheResetState
  intro s rest h
  exact ⟨resetEngine { s with sched := rest }, step_reset h, rfl, resetEngine_chain _, resetEngine_phase _,
    resetEngine_status _, resetEngine_len _, resetEngine_nblk _, resetEngine_blkidx _, resetEngine_step _,
    resetEngine_hex_getElem _, resetEngine_byteAt _⟩

/-- Settles O52, by `inv_reset`: each clause is about the defaults, the empty memory or a 0. -/
theorem invariantHoldsAtReset : Obligations.InvariantHoldsAtReset := by
  unfold Obligations.InvariantHoldsAtReset
  exact Sys2Proof.Safety.inv_reset

end
